-- ==== Sys2Proof/Word.lean ====
section
/-! DEFINITION. The word types of the engine and the names of its three buffer memories
(spec/00_scope.md R4, spec/10_state.md R23). -/

namespace Sys2Proof

/-- An 8-bit pixel channel or character code (00_scope.md R4, `u8`). -/
abbrev Byte := BitVec 8

/-- A 16-bit audio sample pattern (00_scope.md R4, `u16`). -/
abbrev Half := BitVec 16

/-- A register or one unit word of a buffer memory: 32 bits (00_scope.md R4, `RW` and `UW`). -/
abbrev Word := BitVec 32

/-- The three buffer memories, each a separate address space indexed by unit (10_state.md R23). -/
inductive Buffer where
  | car
  | pay
  | out
  deriving DecidableEq, Repr

end Sys2Proof
end

