-- ==== Sys2Proof/Syntax.lean ====
section
/-! DEFINITION. The nine commands of spec/opcode_table.json (30_encoding.md R49). A command has no operand
fields: its operands are the descriptor registers and the memories (30_encoding.md R46, R47). -/

namespace Sys2Proof

/-- The command set, one constructor per row of the opcode table. -/
inductive Instr where
  | embII
  | revII
  | embTI
  | revTI
  | embAA
  | revAA
  | embTA
  | revTA
  | quit
  deriving DecidableEq, Repr

end Sys2Proof
end

