-- ==== Sys2Proof/Machine/Port.lean ====
section
/-! DEFINITION. What the host can do at the engine's ports (45_control.md R86, R87, R88; 70_reset_and_hazards.md
R101), the names of the registers (10_state.md R13), the turns an agenda is made of (log 1), and the host
programs' lines of 30_encoding.md R51 and R52. -/

namespace Sys2Proof.Machine

/-- The 21 implemented registers (10_state.md R13). -/
inductive Reg where
  | cmd | status
  | carW | carH | carLen | payW | payH | payLen
  | outW | outH | outLen
  | carChannels | carSwidth | carFrate | carFrames | carComp
  | outChannels | outSwidth | outFrate | outFrames | outComp
  deriving DecidableEq, Repr

/-- One transaction of the host. The register port carries a 5-bit register number (45_control.md R86); a
memory port carries a unit index, a natural number (20_memory.md R28). -/
inductive PortOp where
  | readReg (n : Fin 32)
  | writeReg (n : Fin 32) (v : Word)
  | readMem (m : Buffer) (i : Nat)
  | writeMem (m : Buffer) (i : Nat) (v : Word)
  | reset
  deriving DecidableEq, Repr

/-- One turn: the engine may take its completion step, or the host performs one transaction. -/
inductive Turn where
  | engine
  | port (op : PortOp)
  deriving DecidableEq, Repr

/-- One line of a host program (30_encoding.md R51) or one pseudo-instruction (R52). `polls` is how many
STATUS reads of a WAIT still find the engine BUSY; the spec leaves that number open (70_reset_and_hazards.md
R114, log 15). -/
inductive Line where
  | reset
  | wr (n : Fin 32) (v : Word)
  | rd (n : Fin 32)
  | st (m : Buffer) (i : Nat) (v : Word)
  | ld (m : Buffer) (i : Nat)
  | command (i : Instr) (polls : Nat)
  | wait (polls : Nat)
  | pix (m : Buffer) (i : Nat) (r g b a : Nat)
  | smp (m : Buffer) (i : Nat) (v : Int)
  | txt (codes : List Nat)
  | embTIM (polls : Nat)
  | move (n : Nat)
  | cardims (w h : Word)
  | audioparams (ch sw fr fc comp : Word)
  deriving DecidableEq, Repr

/-- A host program: lines top to bottom, and `IF <STATUS bit> ... ELSE ... END` on the STATUS value last
read (30_encoding.md R51). -/
inductive Script where
  | done
  | line (l : Line) (rest : Script)
  | ifStatus (bit : Fin 32) (yes no rest : Script)
  deriving DecidableEq, Repr

end Sys2Proof.Machine
end

