-- ==== Sys2Proof/WellFormed.lean ====
section
/-! DEFINITION. Which instructions and host program lines are well formed. -/

namespace Sys2Proof

/-- A command has no operand that could be out of range (30_encoding.md R46), so each of the nine is well
formed; written out so that a new constructor must be considered. -/
def Instr.wf : Instr → Bool
  | .embII | .revII | .embTI | .revTI | .embAA | .revAA | .embTA | .revTA | .quit => true

/-- The operand ranges of the pseudo-instructions: PIX takes four 8-bit channels, SMP a 16-bit signed value,
TXT 8-bit codes and a length that fits a register, MOVE any count (30_encoding.md R52; 10_state.md R24, R25,
R26). -/
def Machine.Line.wf : Line → Bool
  | .reset | .wr _ _ | .rd _ | .st _ _ _ | .ld _ _ | .wait _ | .embTIM _ | .move _ | .cardims _ _
  | .audioparams _ _ _ _ _ => true
  | .command i _ => i.wf
  | .pix _ _ r g b a => r < 256 && g < 256 && b < 256 && a < 256
  | .smp _ _ v => decide (-32768 ≤ v) && decide (v ≤ 32767)
  | .txt codes => codes.all (· < 256) && codes.length < 2 ^ 32

/-- Every line of a host program is well formed. -/
def Machine.Script.wf : Script → Bool
  | .done => true
  | .line l rest => l.wf && rest.wf
  | .ifStatus _ yes no rest => yes.wf && no.wf && rest.wf

end Sys2Proof
end

