-- ==== Sys2Proof/Decode.lean ====
section
/-! DEFINITION. The decoder, total on all 2^32 command words (30_encoding.md R46, R49, R50), and the encoder
written from the same table. -/

namespace Sys2Proof

/-- Why a word names no command: it is not 1 to 9 (30_encoding.md R50, 60_exceptions.md R92). -/
inductive Reject where
  | invalidCommand (v : Word)
  deriving DecidableEq, Repr

/-- One row of the opcode table: the word is the row's when its masked bits equal the pattern. -/
structure OpcodeRow where
  instr   : Instr
  mask    : Word
  pattern : Word
  deriving DecidableEq, Repr

/-- The opcode table: "the mask of every row is 0xFFFFFFFF" (30_encoding.md R46), values of R49. -/
def opcodeTable : List OpcodeRow :=
  [⟨.embII, 0xFFFFFFFF#32, 1#32⟩, ⟨.revII, 0xFFFFFFFF#32, 2#32⟩,
   ⟨.embTI, 0xFFFFFFFF#32, 3#32⟩, ⟨.revTI, 0xFFFFFFFF#32, 4#32⟩,
   ⟨.embAA, 0xFFFFFFFF#32, 5#32⟩, ⟨.revAA, 0xFFFFFFFF#32, 6#32⟩,
   ⟨.embTA, 0xFFFFFFFF#32, 7#32⟩, ⟨.revTA, 0xFFFFFFFF#32, 8#32⟩,
   ⟨.quit, 0xFFFFFFFF#32, 9#32⟩]

/-- A row matches a command word. -/
def OpcodeRow.covers (r : OpcodeRow) (w : Word) : Bool := w &&& r.mask == r.pattern

/-- The command a word names, or its rejection by name. -/
def decode (w : Word) : Except Reject Instr :=
  match opcodeTable.find? (fun r => r.covers w) with
  | some r => .ok r.instr
  | none => .error (.invalidCommand w)

/-- The command word of a command (30_encoding.md R49). -/
def encode : Instr → Word
  | .embII => 1#32
  | .revII => 2#32
  | .embTI => 3#32
  | .revTI => 4#32
  | .embAA => 5#32
  | .revAA => 6#32
  | .embTA => 7#32
  | .revTA => 8#32
  | .quit => 9#32

/-- The command word made of the low `nbits` bits of `w`, the bits above being 0; `none` when that is more
than one 32-bit word (30_encoding.md R46: one command is one word). -/
def tableWord (nbits w : Nat) : Option Word :=
  let v := w % 2 ^ nbits
  if v < 2 ^ 32 then some (BitVec.ofNat 32 v) else none

/-- The command the decoder reads from a table row's bits. -/
def decodeTableWord (nbits w : Nat) : Option Instr :=
  match tableWord nbits w with
  | some v => (decode v).toOption
  | none => none

end Sys2Proof
end

