-- ==== Sys2Proof/Machine/Bits.lean ====
section
/-! DEFINITION. Bit patterns: fields of a unit word (10_state.md R24, R25, R26), LSB substitution and
extraction (40_bitplane_primitive.md R53, R54), the bitstream functions (R58 to R61) and embedding a bit
sequence into a carrier (R62). All are functions of sequences; no state. -/

namespace Sys2Proof.Machine

/-- The `n`-bit pattern whose bit `b` is `f b`: the bits are shifted to their places and ORed together
(40_bitplane_primitive.md R57 (c), R57 (d)). -/
def orBits (n : Nat) (f : Nat → Bool) : BitVec n :=
  (List.range n).foldl (fun v b => v ||| ((BitVec.ofBool (f b)).setWidth n <<< b)) 0#n

/-- Channel `c` of a pixel word: R = 0, G = 1, B = 2, A = 3 (10_state.md R24). -/
def chan (w : Word) (c : Nat) : Byte := w.extractLsb' (8 * c) 8

/-- The sample pattern of a word (10_state.md R25). -/
def samp (w : Word) : Half := w.extractLsb' 0 16

/-- The numeric value of a sample pattern, two's complement (10_state.md R25; log 14). -/
def signed16 (p : Half) : Int := if p.toNat < 32768 then (p.toNat : Int) else (p.toNat : Int) - 65536

/-- The character code of a word (10_state.md R26). -/
def chr (w : Word) : Byte := w.extractLsb' 0 8

/-- LSB substitution: clear bit `i`, then OR the payload bit in (40_bitplane_primitive.md R53). -/
def setlsb (w : Word) (i : Nat) (b : Bool) : Word :=
  (w &&& ~~~(1#32 <<< i)) ||| ((BitVec.ofBool b).setWidth 32 <<< i)

/-- LSB extraction (40_bitplane_primitive.md R54). -/
def getlsb (w : Word) (i : Nat) : Bool := w.getLsbD i

/-- The text's bits, most significant bit of each character first (40_bitplane_primitive.md R58, 20_memory.md
R30). -/
def textbits (t : List Byte) : List Bool :=
  (List.range (8 * t.length)).map fun k => (t.getD (k / 8) 0#8).getLsbD (7 - k % 8)

/-- The whole bytes of a bit sequence, most significant bit first; a short last group is dropped
(40_bitplane_primitive.md R59, 20_memory.md R34). -/
def bytesof (s : List Bool) : List Byte :=
  (List.range (s.length / 8)).map fun j => orBits 8 fun i => s.getD (8 * j + (7 - i)) false

/-- The samples' bits, least significant bit of each sample first (40_bitplane_primitive.md R60, 20_memory.md
R31). -/
def samplebits (p : List Half) : List Bool :=
  (List.range (16 * p.length)).map fun k => (p.getD (k / 16) 0#16).getLsbD (k % 16)

/-- The first `n` samples of a bit sequence of at least `16 * n` bits (40_bitplane_primitive.md R60). -/
def samplesof (s : List Bool) (n : Nat) : List Half :=
  (List.range n).map fun i => orBits 16 fun b => s.getD (16 * i + b) false

/-- The LSBs of R, G, B of each pixel in order (40_bitplane_primitive.md R61, 20_memory.md R32). -/
def pixelbits (p : List Word) : List Bool :=
  (List.range (3 * p.length)).map fun k => getlsb (p.getD (k / 3) 0#32) (8 * (k % 3))

/-- The LSB of each sample word in order (40_bitplane_primitive.md R61). -/
def samplelsbs (c : List Word) : List Bool := c.map fun w => getlsb w 0

/-- Substitute a bit if there is one. -/
def putlsb (w : Word) (i : Nat) : Option Bool → Word
  | some b => setlsb w i b
  | none => w

/-- Embedding a bit sequence into a pixel carrier: stream bit `3 * p + c` into channel `c` of pixel `p`, for
`c` = 0, 1, 2; what the stream does not reach is copied (40_bitplane_primitive.md R62). -/
def embedPixels (cover : List Word) (s : List Bool) : List Word :=
  (List.range cover.length).map fun p =>
    putlsb (putlsb (putlsb (cover.getD p 0#32) 0 s[3 * p]?) 8 s[3 * p + 1]?) 16 s[3 * p + 2]?

/-- Embedding a bit sequence into a sample carrier: stream bit `k` into bit 0 of word `k`
(40_bitplane_primitive.md R62). -/
def embedSamples (cover : List Word) (s : List Bool) : List Word :=
  (List.range cover.length).map fun k => putlsb (cover.getD k 0#32) 0 s[k]?

/-- A grid of `w` by `h` units, row-major: the unit at column `x`, row `y` stands at index `y * w + x`
(20_memory.md R33). -/
def raster (w h : Nat) (f : Nat → Nat → Word) : List Word :=
  (List.range (w * h)).map fun i => f (i % w) (i / w)

/-- The marker character `'#'`, code 0x23 (00_scope.md R6; log 11). -/
def hash : Byte := 0x23#8

/-- The three characters that end a text-in-image payload (00_scope.md R4). -/
def marker : List Byte := [hash, hash, hash]

/-- The index of the byte that completes the first marker: the smallest `j` with `2 ≤ j` and bytes `j - 2`,
`j - 1`, `j` all `'#'` (42_text_in_image.md R72). -/
def markerEnd (b : List Byte) : Option Nat :=
  (List.range b.length).find? fun j =>
    decide (2 ≤ j) && b[j - 2]? == some hash && b[j - 1]? == some hash && b[j]? == some hash

/-- The index of the first zero byte (44_text_in_audio.md R78). -/
def zeroByte (b : List Byte) : Option Nat :=
  (List.range b.length).find? fun j => b[j]? == some 0#8

/-- The words a text reveal writes: the first `n` bytes, zero-extended (42_text_in_image.md R72,
44_text_in_audio.md R78). -/
def charWords (b : List Byte) (n : Nat) : List Word := (b.take n).map fun c => c.setWidth 32

end Sys2Proof.Machine
end

