-- ==== Sys2Proof/Config.lean ====
section
/-! DEFINITION. What an implementation fixes (the three memory depths, 00_scope.md R4) and the values the
spec leaves unspecified (93_implementation_defined.md U6, U7), as constants without a body. -/

namespace Sys2Proof

/-- The open parameters of 00_scope.md R4: the number of unit words of each memory, `none` for
"unbounded". State carries one such record and no step writes it (log 3). -/
structure Config where
  carDepth : Option Nat
  payDepth : Option Nat
  outDepth : Option Nat
  deriving DecidableEq, Repr

/-- FREE VALUE (93_implementation_defined.md U7, 10_state.md R27): what the word at an index of a memory
reads as when the host has not written it since reset number `epoch` (log 4). -/
opaque Config.powerOnWord (epoch : Nat) (buffer : Buffer) (index : Nat) : Word

/-- FREE VALUE (93_implementation_defined.md U6, 45_control.md R88): what the `n`-th host memory read made
while the engine is BUSY returns (log 5). -/
opaque Config.busyReadWord (n : Nat) : Word

end Sys2Proof
end

