-- ==== Sys2Proof/Machine/State.lean ====
section
/-! DEFINITION. The complete architectural state (10_state.md R7) as plain data, the outcomes a step can stop
with, and the state right after reset (10_state.md R27, 70_reset_and_hazards.md R101). -/

namespace Sys2Proof.Machine

/-- `STATE` (10_state.md R9). -/
inductive RunState where
  | idle
  | busy
  | halted
  deriving DecidableEq, Repr

/-- The five STATUS bits that are state of their own (10_state.md R15). BUSY and HALTED are 1 exactly when
`STATE` is BUSY or HALTED, so they are computed from it and not stored twice (log 7). -/
structure Status where
  done     : Bool
  term     : Bool
  errCap   : Bool
  errRange : Bool
  errCmd   : Bool
  deriving DecidableEq, Repr

/-- An audio parameter block: channel count, sample width in bits, frame rate, frame count, compression type
(10_state.md R19, R20). -/
structure AudioParams where
  channels : Word
  swidth   : Word
  frate    : Word
  frames   : Word
  comp     : Word
  deriving DecidableEq, Repr

/-- The descriptor: the registers the host writes and the engine only reads (10_state.md R16, R17, R19). -/
structure Descriptor where
  carW   : Word
  carH   : Word
  carLen : Word
  payW   : Word
  payH   : Word
  payLen : Word
  params : AudioParams
  deriving DecidableEq, Repr

/-- The result registers, written by the engine only (10_state.md R18, R20). -/
structure ResultRegs where
  outW   : Word
  outH   : Word
  outLen : Word
  params : AudioParams
  deriving DecidableEq, Repr

/-- A buffer memory: the words written since reset, as pairs (unit index, word) with strictly rising indices
(log 6). An index that is not listed has not been written since reset. -/
structure Memory where
  cells : List (Nat × Word)
  deriving DecidableEq, Repr

/-- No step of this machine faults: every error the spec gives is reported in STATUS by a next state
(60_exceptions.md R89, R96). -/
inductive Fault where
  deriving DecidableEq, Repr

/-- Why a step has no next state. -/
inductive Refusal where
  /-- Raised by an arm of `exec` whose command has no meaning yet (safe). No arm is left that raises it. -/
  | notModelled (mnemonic : String)
  /-- Raised by REV_TI when the recovered text's length does not fit the 32 bits of OUT_LEN: 40_bitplane_primitive.md
  R57 (a) has a model "refuse a text reveal whose recovered length would not fit 32 bits" (safe, log 8). -/
  | textLengthOverflow
  deriving DecidableEq, Repr

/-- The state: what 10_state.md R7 lists, the open parameters, and the model's own fields. -/
structure State where
  /-- The open parameters; no step writes them (log 3). -/
  cfg    : Config
  /-- `STATE` (10_state.md R9). -/
  run    : RunState
  /-- `STATUS` but for BUSY and HALTED (10_state.md R15). -/
  status : Status
  /-- `CMD` (10_state.md R14). -/
  cmd    : Word
  /-- CAR_W to PAY_LEN and the CAR parameter registers (10_state.md R16, R17, R19). -/
  desc   : Descriptor
  /-- OUT_W to OUT_LEN and the OUT parameter registers (10_state.md R18, R20). -/
  res    : ResultRegs
  /-- Memory CAR (10_state.md R23). -/
  car    : Memory
  /-- Memory PAY (10_state.md R23). -/
  pay    : Memory
  /-- Memory OUT (10_state.md R23). -/
  out    : Memory
  /-- The model's own: the turns still to be taken (log 1). -/
  agenda : List Turn
  /-- The model's own: what the latest host transaction returned, `none` for a write or reset (log 9). -/
  reply  : Option Word
  /-- The model's own: how many resets have happened (log 4). -/
  epoch  : Nat
  /-- The model's own: how many unspecified memory reads were answered (log 5). -/
  draws  : Nat
  deriving DecidableEq, Repr

/-- All flags 0. -/
def Status.clear : Status := ⟨false, false, false, false, false⟩

/-- A parameter block of zeros. -/
def AudioParams.zero : AudioParams := ⟨0#32, 0#32, 0#32, 0#32, 0#32⟩

/-- A memory no word of which has been written since reset. -/
def Memory.unwritten : Memory := ⟨[]⟩

/-- The machine right after reset (10_state.md R27): IDLE, every register 0, every memory word unspecified.
The depths (log 3), the agenda (log 1), the reply (log 9) and the two counters (logs 4, 5) are the model's own. -/
def State.reset : State where
  cfg    := ⟨none, none, none⟩
  run    := .idle
  status := .clear
  cmd    := 0#32
  desc   := ⟨0#32, 0#32, 0#32, 0#32, 0#32, 0#32, .zero⟩
  res    := ⟨0#32, 0#32, 0#32, .zero⟩
  car    := .unwritten
  pay    := .unwritten
  out    := .unwritten
  agenda := []
  reply  := none
  epoch  := 0
  draws  := 0

end Sys2Proof.Machine
end

