-- ==== Sys2Proof/Machine/Flags.lean ====
section
/-! DEFINITION. The STATUS word and every computation of its flags (10_state.md R15, R22). The engine has no
arithmetic condition codes. -/

namespace Sys2Proof.Machine

/-- What a read of STATUS returns: the seven fields at their bits, every reserved bit 0 (10_state.md R15). -/
def statusWord (run : RunState) (f : Status) : Word :=
  orBits 32 fun i =>
    match i with
    | 0 => run == .busy
    | 1 => run == .halted
    | 2 => f.done
    | 3 => f.term
    | 8 => f.errCap
    | 9 => f.errRange
    | 10 => f.errCmd
    | _ => false

/-- The flags at the start of a command: all cleared (45_control.md R81). -/
def startFlags : Status := ⟨false, false, false, false, false⟩

/-- The flags of a command that completed without error; `term` is its terminator-found bit
(40_bitplane_primitive.md R64). -/
def successFlags (term : Bool) : Status := ⟨true, term, false, false, false⟩

/-- The flags of a command that raised an exception: its error bits as raised, DONE 1, TERM 0
(60_exceptions.md R96). -/
def exceptionFlags (cap rng cmd : Bool) : Status := ⟨true, false, cap, rng, cmd⟩

/-- The flags after QUIT (45_control.md R83). -/
def quitFlags : Status := ⟨true, false, false, false, false⟩

end Sys2Proof.Machine
end

