-- ==== Sys2Proof/Machine/Ops.lean ====
section
/-! DEFINITION. The named operations every meaning and every host access is made of: the buffer memories
(10_state.md R23, 20_memory.md R37), the registers by name and number (10_state.md R13), starting a command
(45_control.md R81), committing a result (40_bitplane_primitive.md R64), taking an exception
(60_exceptions.md R96), and reset (70_reset_and_hazards.md R101). -/

namespace Sys2Proof.Machine

/-! ### One memory -/

/-- The word listed at an index. -/
def lookupCell (i : Nat) : List (Nat × Word) → Option Word
  | [] => none
  | (k, w) :: rest => if k = i then some w else lookupCell i rest

/-- List a word at an index, keeping the indices rising. -/
def insertCell (i : Nat) (v : Word) : List (Nat × Word) → List (Nat × Word)
  | [] => [(i, v)]
  | (k, w) :: rest =>
    if k < i then (k, w) :: insertCell i v rest
    else if k = i then (i, v) :: rest
    else (i, v) :: (k, w) :: rest

/-- The words at indices `k`, `k + 1`, and on. -/
def numberFrom (k : Nat) : List Word → List (Nat × Word)
  | [] => []
  | w :: ws => (k, w) :: numberFrom (k + 1) ws

/-- The word written at an index since reset, if there is one. -/
def Memory.get? (m : Memory) (i : Nat) : Option Word := lookupCell i m.cells

/-- Write one unit word (20_memory.md R37). -/
def Memory.set (m : Memory) (i : Nat) (v : Word) : Memory := ⟨insertCell i v m.cells⟩

/-- Write the words of a result extent, indices 0 to `ws.length - 1`, and no other word
(40_bitplane_primitive.md R65). -/
def Memory.setPrefix (m : Memory) (ws : List Word) : Memory :=
  ⟨numberFrom 0 ws ++ m.cells.filter fun c => decide (ws.length ≤ c.1)⟩

/-- The canonical form: strictly rising indices (log 6). An unlisted index reads as "never written", which
no entry can equal. -/
abbrev Memory.wf (m : Memory) : Prop := (m.cells.map Prod.fst).Pairwise (· < ·)

/-! ### Depths (00_scope.md R4) -/

/-- The depth of a memory; `none` is "unbounded". -/
def depthOf (c : Config) : Buffer → Option Nat
  | .car => c.carDepth
  | .pay => c.payDepth
  | .out => c.outDepth

/-- `n > depth`, false against an unbounded depth (00_scope.md R4). -/
def exceeds (n : Nat) : Option Nat → Bool
  | none => false
  | some d => decide (d < n)

/-- `i < depth`, true against an unbounded depth. -/
def inDepth (i : Nat) : Option Nat → Bool
  | none => true
  | some d => decide (i < d)

/-- Every listed index lies below the depth. -/
abbrev Memory.fits (m : Memory) (depth : Option Nat) : Prop := ∀ c ∈ m.cells, inDepth c.1 depth = true

/-! ### The memories of a state -/

/-- One of the three memories. -/
def State.mem (s : State) : Buffer → Memory
  | .car => s.car
  | .pay => s.pay
  | .out => s.out

/-- Replace one of the three memories. -/
def State.setMem (m : Buffer) (v : Memory) (s : State) : State :=
  match m with
  | .car => { s with car := v }
  | .pay => { s with pay := v }
  | .out => { s with out := v }

/-- The word at an index: the one written since reset, else the free value (10_state.md R27,
93_implementation_defined.md U7; log 4). -/
def State.word (s : State) (m : Buffer) (i : Nat) : Word :=
  ((s.mem m).get? i).getD (Config.powerOnWord s.epoch m i)

/-- The words at indices 0 to `n - 1`. -/
def State.words (s : State) (m : Buffer) (n : Nat) : List Word := (List.range n).map (s.word m)

/-! ### The register file (10_state.md R13) -/

/-- The number of a register. -/
def Reg.number : Reg → Fin 32
  | .cmd => 0 | .status => 1
  | .carW => 2 | .carH => 3 | .carLen => 4 | .payW => 5 | .payH => 6 | .payLen => 7
  | .outW => 8 | .outH => 9 | .outLen => 10
  | .carChannels => 16 | .carSwidth => 17 | .carFrate => 18 | .carFrames => 19 | .carComp => 20
  | .outChannels => 24 | .outSwidth => 25 | .outFrate => 26 | .outFrames => 27 | .outComp => 28

/-- The register at a number; `none` at the reserved numbers 11 to 15, 21 to 23, 29 to 31 (10_state.md R21). -/
def regAt (n : Fin 32) : Option Reg :=
  match n.val with
  | 0 => some .cmd | 1 => some .status
  | 2 => some .carW | 3 => some .carH | 4 => some .carLen
  | 5 => some .payW | 6 => some .payH | 7 => some .payLen
  | 8 => some .outW | 9 => some .outH | 10 => some .outLen
  | 16 => some .carChannels | 17 => some .carSwidth | 18 => some .carFrate
  | 19 => some .carFrames | 20 => some .carComp
  | 24 => some .outChannels | 25 => some .outSwidth | 26 => some .outFrate
  | 27 => some .outFrames | 28 => some .outComp
  | _ => none

/-- The value of a register. -/
def State.reg (s : State) : Reg → Word
  | .cmd => s.cmd
  | .status => statusWord s.run s.status
  | .carW => s.desc.carW
  | .carH => s.desc.carH
  | .carLen => s.desc.carLen
  | .payW => s.desc.payW
  | .payH => s.desc.payH
  | .payLen => s.desc.payLen
  | .outW => s.res.outW
  | .outH => s.res.outH
  | .outLen => s.res.outLen
  | .carChannels => s.desc.params.channels
  | .carSwidth => s.desc.params.swidth
  | .carFrate => s.desc.params.frate
  | .carFrames => s.desc.params.frames
  | .carComp => s.desc.params.comp
  | .outChannels => s.res.params.channels
  | .outSwidth => s.res.params.swidth
  | .outFrate => s.res.params.frate
  | .outFrames => s.res.params.frames
  | .outComp => s.res.params.comp

/-- Replace the descriptor. -/
def State.setDesc (d : Descriptor) (s : State) : State := { s with desc := d }

/-- Write a descriptor register, an RW register other than CMD (10_state.md R13); the descriptor is unchanged
for any other register. -/
def Descriptor.set (d : Descriptor) (v : Word) : Reg → Descriptor
  | .carW => { d with carW := v }
  | .carH => { d with carH := v }
  | .carLen => { d with carLen := v }
  | .payW => { d with payW := v }
  | .payH => { d with payH := v }
  | .payLen => { d with payLen := v }
  | .carChannels => { d with params := { d.params with channels := v } }
  | .carSwidth => { d with params := { d.params with swidth := v } }
  | .carFrate => { d with params := { d.params with frate := v } }
  | .carFrames => { d with params := { d.params with frames := v } }
  | .carComp => { d with params := { d.params with comp := v } }
  | .cmd | .status | .outW | .outH | .outLen
  | .outChannels | .outSwidth | .outFrate | .outFrames | .outComp => d

/-! ### The two control transitions and what a command leaves -/

/-- Start the command word `v` (45_control.md R81). -/
def start (v : Word) (s : State) : State :=
  { s with cmd := v, status := startFlags, run := .busy }

/-- What a successful command leaves: the words of its result extent, the eight result registers, and its
terminator-found bit. -/
structure Result where
  words : List Word
  regs  : ResultRegs
  term  : Bool
  deriving DecidableEq, Repr

/-- Completion without error (40_bitplane_primitive.md R64): OUT indices 0 to `n - 1`, the result registers,
STATUS, and back to IDLE. -/
def commit (r : Result) (s : State) : State :=
  { s with out := s.out.setPrefix r.words, res := r.regs, status := successFlags r.term, run := .idle }

/-- TAKING AN EXCEPTION (60_exceptions.md R96): the error bits as raised, DONE 1, TERM 0, back to IDLE, and
nothing else changes; nothing is saved and control goes nowhere. There is no return from it (R97): the engine
is IDLE, and the bits stay until the next `start` clears them. -/
def takeException (cap rng cmd : Bool) (s : State) : State :=
  { s with status := exceptionFlags cap rng cmd, run := .idle }

/-- Completion of QUIT (45_control.md R83). -/
def halt (s : State) : State := { s with status := quitFlags, run := .halted }

/-- The reset input (70_reset_and_hazards.md R101): IDLE, every register 0, every memory word unspecified anew.
The depths are the machine's; the agenda and the count of draws are the model's own and go on. -/
def resetEngine (s : State) : State :=
  { State.reset with cfg := s.cfg, agenda := s.agenda, epoch := s.epoch + 1, draws := s.draws }

/-! ### The model's own fields -/

/-- Put an answer on the port (log 9). -/
def State.respond (r : Option Word) (s : State) : State := { s with reply := r }

/-- Replace the turns still to be taken (log 1). -/
def State.setAgenda (a : List Turn) (s : State) : State := { s with agenda := a }

/-- Answer with a fresh free value (log 5). -/
def drawReply (s : State) : State :=
  { s with reply := some (Config.busyReadWord s.draws), draws := s.draws + 1 }

/-- Carry the first `n` words of OUT back into CAR unchanged (30_encoding.md R52, MOVE;
70_reset_and_hazards.md R110). -/
def moveOutToCar (n : Nat) (s : State) : State := s.setMem .car (s.car.setPrefix (s.words .out n))

end Sys2Proof.Machine
end

