-- ==== Sys2Proof/Machine/Operands.lean ====
section
/-! DEFINITION. The operands of a command: what it reads from the descriptor registers and the memories
(30_encoding.md R47, R48), and the two conditions that are decided from the descriptor registers alone
(60_exceptions.md R90, R91). All arithmetic is exact on natural numbers (00_scope.md R5). -/

namespace Sys2Proof.Machine

/-- `CAR_W * CAR_H`, exact. -/
def carPixels (s : State) : Nat := s.desc.carW.toNat * s.desc.carH.toNat

/-- `PAY_W * PAY_H`, exact. -/
def payPixels (s : State) : Nat := s.desc.payW.toNat * s.desc.payH.toNat

/-- The carrier as pixels, CAR indices 0 to `CAR_W * CAR_H - 1` (10_state.md R16). -/
def coverPixels (s : State) : List Word := s.words .car (carPixels s)

/-- The carrier as samples, CAR indices 0 to `CAR_LEN - 1` (10_state.md R16). -/
def coverSamples (s : State) : List Word := s.words .car s.desc.carLen.toNat

/-- The text of an embed: the characters of PAY indices 0 to `PAY_LEN - 1` (10_state.md R17, R26). -/
def payText (s : State) : List Byte := (s.words .pay s.desc.payLen.toNat).map chr

/-- The secret samples of EMB_AA: PAY indices 0 to `PAY_LEN - 1` (10_state.md R17, R25). -/
def paySamples (s : State) : List Half := (s.words .pay s.desc.payLen.toNat).map samp

/-- The capacity condition of a command, true when CapacityError is raised (60_exceptions.md R90). -/
def capacityError (i : Instr) (s : State) : Bool :=
  match i with
  | .embII => decide (s.desc.carW.toNat < s.desc.payW.toNat) || decide (s.desc.carH.toNat < s.desc.payH.toNat)
  | .embTI => decide (3 * carPixels s < 8 * s.desc.payLen.toNat)
  | .embAA => decide (s.desc.carLen.toNat < 16 * s.desc.payLen.toNat)
  | .embTA => decide (s.desc.carLen.toNat < 8 * (s.desc.payLen.toNat + 1))
  | .revII | .revTI | .revAA | .revTA | .quit => false

/-- The range condition of a command, true when RangeError is raised (60_exceptions.md R91). -/
def rangeError (i : Instr) (s : State) : Bool :=
  match i with
  | .embII =>
    exceeds (carPixels s) s.cfg.carDepth || exceeds (payPixels s) s.cfg.payDepth
      || exceeds (carPixels s) s.cfg.outDepth
  | .revII =>
    exceeds (carPixels s) s.cfg.carDepth || decide (s.desc.carW.toNat < s.desc.payW.toNat)
      || decide (s.desc.carH.toNat < s.desc.payH.toNat) || exceeds (payPixels s) s.cfg.outDepth
  | .embTI =>
    exceeds (carPixels s) s.cfg.carDepth || exceeds s.desc.payLen.toNat s.cfg.payDepth
      || exceeds (carPixels s) s.cfg.outDepth
  | .revTI =>
    exceeds (carPixels s) s.cfg.carDepth || exceeds (3 * carPixels s / 8) s.cfg.outDepth
  | .embAA =>
    exceeds s.desc.carLen.toNat s.cfg.carDepth || exceeds s.desc.payLen.toNat s.cfg.payDepth
      || exceeds s.desc.carLen.toNat s.cfg.outDepth
  | .revAA =>
    exceeds s.desc.carLen.toNat s.cfg.carDepth || decide (s.desc.carLen.toNat < 16 * s.desc.payLen.toNat)
      || exceeds s.desc.payLen.toNat s.cfg.outDepth
  | .embTA =>
    exceeds s.desc.carLen.toNat s.cfg.carDepth || exceeds s.desc.payLen.toNat s.cfg.payDepth
      || exceeds s.desc.carLen.toNat s.cfg.outDepth
  | .revTA =>
    exceeds s.desc.carLen.toNat s.cfg.carDepth || exceeds (s.desc.carLen.toNat / 8) s.cfg.outDepth
  | .quit => false

/-- The result registers of an image result (10_state.md R18, R20). -/
def imageRegs (w h : Word) : ResultRegs := ⟨w, h, 0#32, .zero⟩

/-- The result registers of an audio result (10_state.md R18, R20). -/
def audioRegs (len : Word) (p : AudioParams) : ResultRegs := ⟨0#32, 0#32, len, p⟩

/-- The result registers of a text result (10_state.md R18, R20). -/
def textRegs (len : Word) : ResultRegs := ⟨0#32, 0#32, len, .zero⟩

/-- The template of the eight codec commands (40_bitplane_primitive.md R64): both conditions are decided first,
from the registers; when one holds the command aborts with both bits reported (60_exceptions.md R95), else its
result is committed. -/
def codec (i : Instr) (result : State → Result) (s : State) : State :=
  if capacityError i s || rangeError i s then takeException (capacityError i s) (rangeError i s) false s
  else commit (result s) s

end Sys2Proof.Machine
end

