-- ==== Sys2Proof/Machine/AudioInAudio.lean ====
section
/-! DEFINITION. EMB_AA and REV_AA (43_audio_in_audio.md R74, R75). -/

namespace Sys2Proof.Machine

/-- The result of a successful EMB_AA: `samplebits(secret)` embedded into the samples, the parameter block
copied (43_audio_in_audio.md R74). -/
def embAAResult (s : State) : Result where
  words := embedSamples (coverSamples s) (samplebits (paySamples s))
  regs := audioRegs s.desc.carLen s.desc.params
  term := false

/-- The parameter block of a REV_AA result: mono, 16 bits, the carrier's frame rate and compression type,
PAY_LEN frames (10_state.md R20). -/
def revAAParams (s : State) : AudioParams :=
  ⟨1#32, 16#32, s.desc.params.frate, s.desc.payLen, s.desc.params.comp⟩

/-- The result of a successful REV_AA: `samplesof(samplelsbs(CAR), n)`, zero-extended
(43_audio_in_audio.md R75). -/
def revAAResult (s : State) : Result where
  words := (samplesof (samplelsbs (coverSamples s)) s.desc.payLen.toNat).map fun v => v.setWidth 32
  regs := audioRegs s.desc.payLen (revAAParams s)
  term := false

/-- EMB_AA: Audio-in-Audio embed (43_audio_in_audio.md R74). -/
def execEmbAA (s : State) : Host.Outcome State Fault Refusal := .next (codec .embAA embAAResult s)

/-- REV_AA: Audio-in-Audio reveal (43_audio_in_audio.md R75). -/
def execRevAA (s : State) : Host.Outcome State Fault Refusal := .next (codec .revAA revAAResult s)

end Sys2Proof.Machine
end

