-- ==== Sys2Proof/Machine/Control.lean ====
section
/-! DEFINITION. QUIT, the invalid command, and the host's accesses (45_control.md R83, R84, R86, R87, R88;
70_reset_and_hazards.md R101). -/

namespace Sys2Proof.Machine

/-- QUIT: enter HALTED (45_control.md R83). -/
def execQuit (s : State) : Host.Outcome State Fault Refusal := .next (halt s)

/-- A command word that names no command takes InvalidCommand (45_control.md R84, 60_exceptions.md R92). -/
def execInvalid (s : State) : Host.Outcome State Fault Refusal := .next (takeException false false true s)

/-- What a host read of a register number returns, in every run state (45_control.md R86). -/
def regValue (n : Fin 32) (s : State) : Word :=
  match regAt n with
  | some r => s.reg r
  | none => 0#32

/-- A host write of a register in IDLE (45_control.md R87): CMD starts a command, an RW register takes the
value, an RO or reserved register ignores it. -/
def writeRegIdle (n : Fin 32) (v : Word) (s : State) : State :=
  match regAt n with
  | some .cmd => start v s
  | some r => s.setDesc (s.desc.set v r)
  | none => s

/-- A host register write, ignored in BUSY and HALTED (45_control.md R87). -/
def writeReg (n : Fin 32) (v : Word) (s : State) : State :=
  match s.run with
  | .idle => writeRegIdle n v s
  | .busy => s
  | .halted => s

/-- A host memory read (45_control.md R88): 0 at or above the depth, a fresh free value in BUSY, else the
word. -/
def readMem (m : Buffer) (i : Nat) (s : State) : State :=
  if inDepth i (depthOf s.cfg m) then
    match s.run with
    | .busy => drawReply s
    | .idle => s.respond (some (s.word m i))
    | .halted => s.respond (some (s.word m i))
  else s.respond (some 0#32)

/-- A host memory write (45_control.md R88): ignored in BUSY and HALTED, and at or above the depth. -/
def writeMem (m : Buffer) (i : Nat) (v : Word) (s : State) : State :=
  match s.run with
  | .idle => if inDepth i (depthOf s.cfg m) then s.setMem m ((s.mem m).set i v) else s
  | .busy => s
  | .halted => s

/-- One host transaction. -/
def access (op : PortOp) (s : State) : State :=
  match op with
  | .readReg n => s.respond (some (regValue n s))
  | .writeReg n v => (writeReg n v s).respond none
  | .readMem m i => readMem m i s
  | .writeMem m i v => (writeMem m i v s).respond none
  | .reset => resetEngine s

end Sys2Proof.Machine
end

