-- ==== Sys2Proof/Machine/ImageInImage.lean ====
section
/-! DEFINITION. EMB_II and REV_II (41_image_in_image.md R68, R69). -/

namespace Sys2Proof.Machine

/-- One cover pixel after taking bit 7 of the secret pixel's R, G, B channels (41_image_in_image.md R68). -/
def embIIPixel (w secret : Word) : Word :=
  setlsb (setlsb (setlsb w 0 (secret.getLsbD 7)) 8 (secret.getLsbD 15)) 16 (secret.getLsbD 23)

/-- One recovered pixel: each LSB shifted to bit 7 of its channel, alpha 255 (41_image_in_image.md R69). -/
def revIIPixel (w : Word) : Word :=
  let lane (i : Nat) : Byte := (BitVec.ofBool (getlsb w i)).setWidth 8 <<< 7
  0xFF#8 ++ lane 16 ++ lane 8 ++ lane 0

/-- The result of a successful EMB_II (41_image_in_image.md R68). -/
def embIIResult (s : State) : Result where
  words := raster s.desc.carW.toNat s.desc.carH.toNat fun x y =>
    let w := s.word .car (y * s.desc.carW.toNat + x)
    if x < s.desc.payW.toNat ∧ y < s.desc.payH.toNat then
      embIIPixel w (s.word .pay (y * s.desc.payW.toNat + x))
    else w
  regs := imageRegs s.desc.carW s.desc.carH
  term := false

/-- The result of a successful REV_II (41_image_in_image.md R69). -/
def revIIResult (s : State) : Result where
  words := raster s.desc.payW.toNat s.desc.payH.toNat fun x y =>
    revIIPixel (s.word .car (y * s.desc.carW.toNat + x))
  regs := imageRegs s.desc.payW s.desc.payH
  term := false

/-- EMB_II: Image-in-Image embed (41_image_in_image.md R68). -/
def execEmbII (s : State) : Host.Outcome State Fault Refusal := .next (codec .embII embIIResult s)

/-- REV_II: Image-in-Image reveal (41_image_in_image.md R69). -/
def execRevII (s : State) : Host.Outcome State Fault Refusal := .next (codec .revII revIIResult s)

end Sys2Proof.Machine
end

