-- ==== Sys2Proof/Machine/TextInAudio.lean ====
section
/-! DEFINITION. EMB_TA and REV_TA (44_text_in_audio.md R77, R78). -/

namespace Sys2Proof.Machine

/-- The result of a successful EMB_TA: `textbits(text ++ [0x00])` embedded into the samples, the parameter block
copied; the engine appends the terminator (44_text_in_audio.md R77). -/
def embTAResult (s : State) : Result where
  words := embedSamples (coverSamples s) (textbits (payText s ++ [0#8]))
  regs := audioRegs s.desc.carLen s.desc.params
  term := false

/-- The bytes REV_TA decodes (44_text_in_audio.md R78). -/
def revTABytes (s : State) : List Byte := bytesof (samplelsbs (coverSamples s))

/-- The length of the text REV_TA recovers: what stands before the first zero byte, 0 when there is none. It
is at most `CAR_LEN / 8` and fits OUT_LEN (40_bitplane_primitive.md R57 (a)). -/
def revTALength (s : State) : Nat :=
  match zeroByte (revTABytes s) with
  | some j => j
  | none => 0

/-- The result of a successful REV_TA (44_text_in_audio.md R78). -/
def revTAResult (s : State) : Result where
  words := charWords (revTABytes s) (revTALength s)
  regs := textRegs (BitVec.ofNat 32 (revTALength s))
  term := (zeroByte (revTABytes s)).isSome

/-- EMB_TA: Text-in-Audio embed (44_text_in_audio.md R77). -/
def execEmbTA (s : State) : Host.Outcome State Fault Refusal := .next (codec .embTA embTAResult s)

/-- REV_TA: Text-in-Audio reveal (44_text_in_audio.md R78). -/
def execRevTA (s : State) : Host.Outcome State Fault Refusal := .next (codec .revTA revTAResult s)

end Sys2Proof.Machine
end

