-- ==== Sys2Proof/Machine/TextInImage.lean ====
section
/-! DEFINITION. EMB_TI and REV_TI (42_text_in_image.md R71, R72). -/

namespace Sys2Proof.Machine

/-- The result of a successful EMB_TI: `textbits(text)` embedded into the pixels; no terminator is added
(42_text_in_image.md R71). -/
def embTIResult (s : State) : Result where
  words := embedPixels (coverPixels s) (textbits (payText s))
  regs := imageRegs s.desc.carW s.desc.carH
  term := false

/-- The bytes REV_TI decodes (42_text_in_image.md R72). -/
def revTIBytes (s : State) : List Byte := bytesof (pixelbits (coverPixels s))

/-- The length of the text REV_TI recovers: what stands before the first marker, 0 when there is none. -/
def revTILength (s : State) : Nat :=
  match markerEnd (revTIBytes s) with
  | some j => j - 2
  | none => 0

/-- The result of a successful REV_TI (42_text_in_image.md R72). -/
def revTIResult (s : State) : Result where
  words := charWords (revTIBytes s) (revTILength s)
  regs := textRegs (BitVec.ofNat 32 (revTILength s))
  term := (markerEnd (revTIBytes s)).isSome

/-- EMB_TI: Text-in-Image embed (42_text_in_image.md R71). -/
def execEmbTI (s : State) : Host.Outcome State Fault Refusal := .next (codec .embTI embTIResult s)

/-- REV_TI: Text-in-Image reveal (42_text_in_image.md R72). A recovered length that does not fit OUT_LEN is
refused, as 40_bitplane_primitive.md R57 (a) asks (log 8). -/
def execRevTI (s : State) : Host.Outcome State Fault Refusal :=
  if rangeError .revTI s = false ∧ 2 ^ 32 ≤ revTILength s then .refused .textLengthOverflow
  else .next (codec .revTI revTIResult s)

end Sys2Proof.Machine
end

