-- ==== Sys2Proof/Machine/Dispatch.lean ====
section
/-! DEFINITION. The completion of each command (30_encoding.md R49, 45_control.md R82), one arm a command. -/

namespace Sys2Proof.Machine

def exec (i : Instr) (s : State) : Host.Outcome State Fault Refusal :=
  match i with
  | .embII => Sys2Proof.Machine.execEmbII s
  | .revII => Sys2Proof.Machine.execRevII s
  | .embTI => Sys2Proof.Machine.execEmbTI s
  | .revTI => Sys2Proof.Machine.execRevTI s
  | .embAA => Sys2Proof.Machine.execEmbAA s
  | .revAA => Sys2Proof.Machine.execRevAA s
  | .embTA => Sys2Proof.Machine.execEmbTA s
  | .revTA => Sys2Proof.Machine.execRevTA s
  | .quit => Sys2Proof.Machine.execQuit s

end Sys2Proof.Machine
end

