-- ==== Sys2Proof/Machine/Engine.lean ====
section
/-! DEFINITION. The engine's turn (45_control.md R82), one turn of either agent, and placing a command word
(20_memory.md R44). -/

namespace Sys2Proof.Machine

/-- The completion of the command CMD holds: decode it, and run it or take InvalidCommand (45_control.md R82). -/
def complete (s : State) : Host.Outcome State Fault Refusal :=
  match decode s.cmd with
  | .ok i => exec i s
  | .error (.invalidCommand _) => execInvalid s

/-- The engine's turn: it completes when BUSY and takes no step otherwise (45_control.md R82, R83; log 10). -/
def engineTurn (s : State) : Host.Outcome State Fault Refusal :=
  match s.run with
  | .busy => complete s
  | .idle => .next s
  | .halted => .next s

/-- The first turn of the agenda; with an empty agenda the engine has its turn, so that a BUSY engine always
completes in the end (70_reset_and_hazards.md R114; log 1). -/
def takeTurn (s : State) : Host.Outcome State Fault Refusal :=
  match s.agenda with
  | [] => engineTurn s
  | .engine :: rest => engineTurn (s.setAgenda rest)
  | .port op :: rest => .next (access op (s.setAgenda rest))

/-- The state in which the host has just started the command word `v` and the engine moves next. -/
def loadCommand (v : Word) (s : State) : State := (start v s).setAgenda (.engine :: s.agenda)

end Sys2Proof.Machine
end

