-- ==== Sys2Proof/Machine/Step.lean ====
section
/-! DEFINITION. One step of the machine, and placing an instruction where the next step fetches it. -/

namespace Sys2Proof.Machine

/-- One step: one turn of the engine or of the host (45_control.md; log 1). -/
def step (s : State) : Host.Outcome State Fault Refusal := takeTurn s

/-- The state `s` with the instruction's bits latched in CMD by a start, the engine moving next: the fetch of
this hardware is the latching of the command word (20_memory.md R44; log 2). Bits that are no 32-bit word start
nothing. -/
def State.withFetchWord (s : State) (nbits w : Nat) : State :=
  match tableWord nbits w with
  | some v => loadCommand v s
  | none => s

end Sys2Proof.Machine
end

