-- ==== Sys2Proof/Machine/Script.lean ====
section
/-! DEFINITION. The host's programs (30_encoding.md R51, R52): each line as the port transactions it stands for,
and running a script against the machine. The engine knows none of this. -/

namespace Sys2Proof.Machine

/-- A register write as a turn. -/
def wrTurn (n : Fin 32) (v : Word) : Turn := .port (.writeReg n v)

/-- A register read as a turn. -/
def rdTurn (n : Fin 32) : Turn := .port (.readReg n)

/-- A memory write as a turn. -/
def stTurn (m : Buffer) (i : Nat) (v : Word) : Turn := .port (.writeMem m i v)

/-- A memory read as a turn. -/
def ldTurn (m : Buffer) (i : Nat) : Turn := .port (.readMem m i)

/-- WAIT: reads of STATUS until BUSY is 0; `polls` of them come before the engine completes (30_encoding.md
R51; log 15). -/
def waitTurns (polls : Nat) : List Turn := List.replicate polls (rdTurn 1) ++ [.engine, rdTurn 1]

/-- A mnemonic: `WR CMD, <OP value>` and WAIT (30_encoding.md R51). -/
def commandTurns (i : Instr) (polls : Nat) : List Turn := wrTurn 0 (encode i) :: waitTurns polls

/-- The word of a pixel: `a*2^24 + b*2^16 + g*2^8 + r` (30_encoding.md R52). -/
def pixWord (r g b a : Nat) : Word := BitVec.ofNat 32 (a * 2 ^ 24 + b * 2 ^ 16 + g * 2 ^ 8 + r)

/-- The word of a sample: `s mod 65536` (30_encoding.md R52). -/
def smpWord (v : Int) : Word := BitVec.ofNat 32 (v % 65536).toNat

/-- Stores of consecutive words. -/
def stTurns (m : Buffer) (k : Nat) : List Word → List Turn
  | [] => []
  | w :: ws => stTurn m k w :: stTurns m (k + 1) ws

/-- What a load answers outside BUSY (45_control.md R88). -/
def loadValue (m : Buffer) (i : Nat) (s : State) : Word :=
  if inDepth i (depthOf s.cfg m) then s.word m i else 0#32

/-- MOVE OUT, CAR, n: load each word and store it in CAR (30_encoding.md R52). -/
def moveTurns (n : Nat) (s : State) : List Turn :=
  (List.range n).flatMap fun i => [ldTurn .out i, stTurn .car i (loadValue .out i s)]

/-- The port transactions of a line that starts in the state `s`; MOVE and EMB_TI.M depend on what the host
reads there (30_encoding.md R51, R52; log 16). -/
def Line.turns (s : State) : Line → List Turn
  | .reset => [.port .reset]
  | .wr n v => [wrTurn n v]
  | .rd n => [rdTurn n]
  | .st m i v => [stTurn m i v]
  | .ld m i => [ldTurn m i]
  | .command i polls => commandTurns i polls
  | .wait polls => waitTurns polls
  | .pix m i r g b a => [stTurn m i (pixWord r g b a)]
  | .smp m i v => [stTurn m i (smpWord v)]
  | .txt codes =>
    stTurns .pay 0 (codes.map (BitVec.ofNat 32)) ++ [wrTurn 7 (BitVec.ofNat 32 codes.length)]
  | .embTIM polls =>
    stTurns .pay s.desc.payLen.toNat [0x23#32, 0x23#32, 0x23#32]
      ++ wrTurn 7 (s.desc.payLen + 3#32) :: commandTurns .embTI polls
  | .move n => moveTurns n s
  | .cardims w h => [wrTurn 2 w, wrTurn 3 h]
  | .audioparams ch sw fr fc comp =>
    [wrTurn 16 ch, wrTurn 17 sw, wrTurn 18 fr, wrTurn 19 fc, wrTurn 20 comp]

/-- `n` steps. -/
def steps : Nat → State → Host.Outcome State Fault Refusal
  | 0, s => .next s
  | n + 1, s =>
    match step s with
    | .next t => steps n t
    | .fault f => .fault f
    | .refused r => .refused r

/-- Run one line: its turns become the agenda, and each is taken. DESIGN CHOICE (log 17): a line that is no WAIT, no
mnemonic and no EMB_TI.M gives a BUSY engine no turn, though the spec, which gives no timing, would let it complete
before or after the line's transactions. -/
def Line.run (l : Line) (s : State) : Host.Outcome State Fault Refusal :=
  steps (l.turns s).length (s.setAgenda (l.turns s))

/-- The STATUS value last read after a line: the line's last reply when it ends with a read of STATUS. -/
def Line.lastStatus (l : Line) (last : Word) (s : State) : Word :=
  match l with
  | .command _ _ | .wait _ | .embTIM _ => s.reply.getD last
  | .rd n => if n = 1 then s.reply.getD last else last
  | .reset | .wr _ _ | .st _ _ _ | .ld _ _ | .pix _ _ _ _ _ _ | .smp _ _ _ | .txt _ | .move _
  | .cardims _ _ | .audioparams _ _ _ _ _ => last

/-- Run a script; `last` is the STATUS value the host read last (30_encoding.md R51). DESIGN CHOICE (log 17): between
two lines the engine has no turn, so a BUSY engine completes only inside a line that waits; the other orders the spec
allows are agendas of `step` (log 1), not scripts. -/
def Script.run : Script → Word → State → Host.Outcome (State × Word) Fault Refusal
  | .done, last, s => .next (s, last)
  | .line l rest, last, s =>
    match l.run s with
    | .next t => rest.run (l.lastStatus last t) t
    | .fault f => .fault f
    | .refused r => .refused r
  | .ifStatus bit yes no rest, last, s =>
    match (if last.getLsbD bit then yes.run last s else no.run last s) with
    | .next (t, last') => rest.run last' t
    | .fault f => .fault f
    | .refused r => .refused r

end Sys2Proof.Machine
end

