-- ==== Sys2Proof/Safety.lean ====
section
/-! DEFINITION. What holds of every state of a run, and the relations between states that the claims speak of. -/

namespace Sys2Proof.Machine

/-- The relations between STATE and the STATUS flags (10_state.md R15, R9; 45_control.md R83): while BUSY all
five are 0; in HALTED DONE is 1 and the rest 0; every other flag implies DONE; TERM excludes every error; ERR_CMD
excludes ERR_CAP and ERR_RANGE. -/
structure StatusInv (s : State) : Prop where
  busy_clear : s.run = .busy → s.status = startFlags
  halted_flags : s.run = .halted → s.status = quitFlags
  only_when_done : s.status.done = false → s.status = startFlags
  term_no_error : s.status.term = true →
    s.status.errCap = false ∧ s.status.errRange = false ∧ s.status.errCmd = false
  cmd_alone : s.status.errCmd = true → s.status.errCap = false ∧ s.status.errRange = false

/-- The three memories are in canonical form (log 6) and hold no word at or above their depth (20_memory.md
R28, 45_control.md R88, 60_exceptions.md R91). -/
structure MemoryInv (s : State) : Prop where
  wf : ∀ m, (s.mem m).wf
  fits : ∀ m, (s.mem m).fits (depthOf s.cfg m)

/-- The invariant of the machine. -/
structure Inv (s : State) : Prop where
  status : StatusInv s
  memory : MemoryInv s

/-- The engine moves next: the agenda is empty, or its first turn is the engine's; `rest` is what is left of it
(log 1). -/
def EngineMoves (s : State) (rest : List Turn) : Prop :=
  (s.agenda = [] ∧ rest = []) ∨ s.agenda = .engine :: rest

/-- `n` is greater than the depth; never so against an unbounded one (00_scope.md R4). -/
def Beyond (n : Nat) (depth : Option Nat) : Prop := ∃ d, depth = some d ∧ d < n

/-- `i` is below the depth; always so against an unbounded one (00_scope.md R4). -/
def Below (i : Nat) (depth : Option Nat) : Prop := ∀ d, depth = some d → i < d

/-- The numbers 11 to 15, 21 to 23 and 29 to 31 are reserved (10_state.md R21). -/
def ReservedNumber (n : Nat) : Prop := 11 ≤ n ∧ n ≤ 15 ∨ 21 ≤ n ∧ n ≤ 23 ∨ 29 ≤ n ∧ n ≤ 31

/-- The RW registers other than CMD: 2 to 7 and 16 to 20 (10_state.md R13). -/
def DescriptorNumber (n : Nat) : Prop := 2 ≤ n ∧ n ≤ 7 ∨ 16 ≤ n ∧ n ≤ 20

/-- Byte `j` of `b` is made of the stream bits `8 * j` to `8 * j + 7`, most significant first (40_bitplane_primitive.md
R59). -/
def BytesOfStream (b : Nat → Byte) (stream : Nat → Bool) : Prop :=
  ∀ j m, m < 8 → (b j).getLsbD (7 - m) = stream (8 * j + m)

/-- Bytes `j - 2`, `j - 1`, `j` are all `'#'` (42_text_in_image.md R72). -/
def MarkerEndsAt (b : Nat → Byte) (j : Nat) : Prop :=
  2 ≤ j ∧ b (j - 2) = 0x23#8 ∧ b (j - 1) = 0x23#8 ∧ b j = 0x23#8

/-- Neither condition of a command holds, so it runs to its result (40_bitplane_primitive.md R64). -/
abbrev Admits (i : Instr) (s : State) : Prop := capacityError i s = false ∧ rangeError i s = false

/-- The inputs of a command are the same in two states: the registers that 30_encoding.md R47 lists for it, the
depths, and the words of CAR and PAY it reads (20_memory.md R38). -/
def SameInputs (i : Instr) (s t : State) : Prop :=
  match i with
  | .embII =>
    s.cfg = t.cfg ∧ s.desc.carW = t.desc.carW ∧ s.desc.carH = t.desc.carH ∧ s.desc.payW = t.desc.payW
      ∧ s.desc.payH = t.desc.payH ∧ (∀ k < carPixels s, s.word .car k = t.word .car k)
      ∧ (∀ k < payPixels s, s.word .pay k = t.word .pay k)
  | .revII =>
    s.cfg = t.cfg ∧ s.desc.carW = t.desc.carW ∧ s.desc.carH = t.desc.carH ∧ s.desc.payW = t.desc.payW
      ∧ s.desc.payH = t.desc.payH
      ∧ (∀ x y, x < s.desc.payW.toNat → y < s.desc.payH.toNat →
          s.word .car (y * s.desc.carW.toNat + x) = t.word .car (y * s.desc.carW.toNat + x))
  | .embTI =>
    s.cfg = t.cfg ∧ s.desc.carW = t.desc.carW ∧ s.desc.carH = t.desc.carH ∧ s.desc.payLen = t.desc.payLen
      ∧ (∀ k < carPixels s, s.word .car k = t.word .car k)
      ∧ (∀ k < s.desc.payLen.toNat, s.word .pay k = t.word .pay k)
  | .revTI =>
    s.cfg = t.cfg ∧ s.desc.carW = t.desc.carW ∧ s.desc.carH = t.desc.carH
      ∧ (∀ k < carPixels s, s.word .car k = t.word .car k)
  | .embAA | .embTA =>
    s.cfg = t.cfg ∧ s.desc.carLen = t.desc.carLen ∧ s.desc.payLen = t.desc.payLen
      ∧ s.desc.params = t.desc.params
      ∧ (∀ k < s.desc.carLen.toNat, s.word .car k = t.word .car k)
      ∧ (∀ k < s.desc.payLen.toNat, s.word .pay k = t.word .pay k)
  | .revAA =>
    s.cfg = t.cfg ∧ s.desc.carLen = t.desc.carLen ∧ s.desc.payLen = t.desc.payLen
      ∧ s.desc.params.frate = t.desc.params.frate ∧ s.desc.params.comp = t.desc.params.comp
      ∧ (∀ k < 16 * s.desc.payLen.toNat, s.word .car k = t.word .car k)
  | .revTA =>
    s.cfg = t.cfg ∧ s.desc.carLen = t.desc.carLen
      ∧ (∀ k < s.desc.carLen.toNat, s.word .car k = t.word .car k)
  | .quit => True

/-- The effect of a command from `s` to `s'` and from `t` to `t'` is the same: run state, STATUS, and either the
result registers and OUT are unchanged on both sides, or they get the same values, OUT on the same indices. -/
def SameEffect (s s' t t' : State) : Prop :=
  s'.run = t'.run ∧ s'.status = t'.status ∧
  ((s'.res = s.res ∧ s'.out = s.out ∧ t'.res = t.res ∧ t'.out = t.out) ∨
   (s'.res = t'.res ∧ ∃ n, (∀ k < n, s'.word .out k = t'.word .out k)
      ∧ ∀ k, n ≤ k → s'.word .out k = s.word .out k ∧ t'.word .out k = t.word .out k))

end Sys2Proof.Machine
end

