-- ==== Sys2Proof/Certificates/Slice0/Obligations.lean ====
section
/-! DEFINITION. The statements for the provers. Each docstring names the rule it formalises. -/

open Sys2Proof Sys2Proof.Machine

/-! ### Encoding -/

/-- 30_encoding.md R49: the nine command words, written out. -/
def Obligations.WordsOneToNineDecode : Prop :=
  decode 0x00000001#32 = .ok .embII ∧ decode 0x00000002#32 = .ok .revII ∧
  decode 0x00000003#32 = .ok .embTI ∧ decode 0x00000004#32 = .ok .revTI ∧
  decode 0x00000005#32 = .ok .embAA ∧ decode 0x00000006#32 = .ok .revAA ∧
  decode 0x00000007#32 = .ok .embTA ∧ decode 0x00000008#32 = .ok .revTA ∧
  decode 0x00000009#32 = .ok .quit

/-- 30_encoding.md R46, R49: among all 2^32 words exactly the encoding of a command decodes to it, also through
the table's bit numbering. -/
def Obligations.DecodeAndEncodeAgree : Prop :=
  ∀ (i : Instr) (w : Word), i.wf = true →
    (decode w = .ok i ↔ w = encode i) ∧ (decodeTableWord 32 w.toNat = some i ↔ w = encode i)

/-- 30_encoding.md R50: exactly 0 and 10 to 0xFFFFFFFF are rejected, under the name InvalidCommand. -/
def Obligations.EveryOtherWordIsRejected : Prop :=
  ∀ w : Word, decode w = .error (.invalidCommand w) ↔ w.toNat = 0 ∨ 10 ≤ w.toNat

/-! ### The engine's turn -/

/-- 45_control.md R82: when BUSY and the engine moves, a step is the completion step; when CMD holds the word of a
command, that is `exec` of the command. Who moves is the model's agenda (log 1). -/
def Obligations.StepRunsTheDecodedCommand : Prop :=
  ∀ (s : State) (rest : List Turn), s.run = .busy → EngineMoves s rest →
    step s = complete { s with agenda := rest } ∧
    ∀ i : Instr, decode s.cmd = .ok i → i.wf = true → step s = exec i { s with agenda := rest }

/-- 20_memory.md R41 (c): when the host moves, a step is its next transaction. Who moves is the model's agenda
(log 1). -/
def Obligations.StepPerformsTheHostTransaction : Prop :=
  ∀ (s : State) (op : PortOp) (rest : List Turn), s.agenda = .port op :: rest →
    step s = .next (access op { s with agenda := rest }) ∧ (access op { s with agenda := rest }).agenda = rest

/-- 20_memory.md R44, 45_control.md R81: a command word placed by `withFetchWord` (the model's stand-in for the host's
start, log 2) is what the very next step runs, in the state that start leaves. -/
def Obligations.PlacedCommandRunsNext : Prop :=
  ∀ (s : State) (i : Instr),
    step (s.withFetchWord 32 (encode i).toNat)
      = exec i { s with cmd := encode i, run := .busy, status := ⟨false, false, false, false, false⟩ }

/-- 45_control.md R84, 60_exceptions.md R92: the completion step on a word that names no command sets ERR_CMD and
changes nothing else; STATUS reads 0x404 and the engine is IDLE. -/
def Obligations.InvalidCommandCompletes : Prop :=
  ∀ s : State, s.cmd.toNat = 0 ∨ 10 ≤ s.cmd.toNat →
    ∃ t, complete s = .next t ∧ regValue 1 t = 0x00000404#32 ∧
      t = { s with run := .idle,
                   status := { done := true, term := false, errCap := false, errRange := false, errCmd := true } }

/-- 45_control.md R82, R83: in IDLE and HALTED the engine takes no step: a turn that the agenda gives it (log 1) only
passes. -/
def Obligations.WaitingEngineTakesNoStep : Prop :=
  ∀ (s : State) (rest : List Turn),
    s.run ≠ .busy → EngineMoves s rest → step s = .next { s with agenda := rest }

/-- 45_control.md R83: QUIT halts and STATUS reads 6, nothing else changing; from then on the engine takes no step, no
host transaction but reset changes any state, register and memory reads answer the values held, and reset leaves
HALTED. -/
def Obligations.QuitHaltsUntilReset : Prop :=
  (∀ s : State, ∃ t, exec .quit s = .next t ∧ regValue 1 t = 0x00000006#32 ∧
    t = { s with run := .halted,
                 status := { done := true, term := false, errCap := false, errRange := false, errCmd := false } }) ∧
  ∀ s : State, s.run = .halted →
    engineTurn s = .next s ∧
    (∀ op, op ≠ .reset → ∃ r, access op s = { s with reply := r }) ∧
    (∀ n, access (.readReg n) s = { s with reply := some (regValue n s) }) ∧
    (∀ m i, Below i (depthOf s.cfg m) → access (.readMem m i) s = { s with reply := some (s.word m i) }) ∧
    (access .reset s).run = .idle

/-! ### Registers and memories at the ports -/

/-- 10_state.md R13, R21: what each register number reads, in every run state; the reserved numbers read 0. -/
def Obligations.RegisterFileLayout : Prop :=
  ∀ s : State,
    regValue 0 s = s.cmd ∧ regValue 1 s = statusWord s.run s.status ∧
    regValue 2 s = s.desc.carW ∧ regValue 3 s = s.desc.carH ∧ regValue 4 s = s.desc.carLen ∧
    regValue 5 s = s.desc.payW ∧ regValue 6 s = s.desc.payH ∧ regValue 7 s = s.desc.payLen ∧
    regValue 8 s = s.res.outW ∧ regValue 9 s = s.res.outH ∧ regValue 10 s = s.res.outLen ∧
    regValue 16 s = s.desc.params.channels ∧ regValue 17 s = s.desc.params.swidth ∧
    regValue 18 s = s.desc.params.frate ∧ regValue 19 s = s.desc.params.frames ∧
    regValue 20 s = s.desc.params.comp ∧
    regValue 24 s = s.res.params.channels ∧ regValue 25 s = s.res.params.swidth ∧
    regValue 26 s = s.res.params.frate ∧ regValue 27 s = s.res.params.frames ∧
    regValue 28 s = s.res.params.comp ∧
    ∀ n : Fin 32, ReservedNumber n.val → regValue n s = 0#32

/-- 10_state.md R15: the fields of STATUS at their bits, every reserved bit 0. -/
def Obligations.StatusRegisterFields : Prop :=
  ∀ s : State,
    (regValue 1 s).getLsbD 0 = decide (s.run = .busy) ∧ (regValue 1 s).getLsbD 1 = decide (s.run = .halted) ∧
    (regValue 1 s).getLsbD 2 = s.status.done ∧ (regValue 1 s).getLsbD 3 = s.status.term ∧
    (regValue 1 s).getLsbD 8 = s.status.errCap ∧ (regValue 1 s).getLsbD 9 = s.status.errRange ∧
    (regValue 1 s).getLsbD 10 = s.status.errCmd ∧
    ∀ i, 4 ≤ i ∧ i ≤ 7 ∨ 11 ≤ i → (regValue 1 s).getLsbD i = false

/-- 45_control.md R86: a host register read answers the register's value, 0 at a reserved number, in every run
state, and changes nothing (the answer is the model's `reply` field, log 9). -/
def Obligations.RegisterReadHasNoSideEffect : Prop :=
  ∀ (s : State) (n : Fin 32),
    ∃ v, access (.readReg n) s = { s with reply := some v } ∧
      (∀ r, regAt n = some r → v = s.reg r) ∧ (ReservedNumber n.val → v = 0#32)

/-- 45_control.md R81, R87: a host register write. In IDLE, CMD starts a command, an RW register takes the value and
no other register changes, an RO or reserved register ignores it; in BUSY and HALTED it is ignored. -/
def Obligations.RegisterWriteEffect : Prop :=
  ∀ (s : State) (n : Fin 32) (v : Word),
    (s.run = .idle → n = 0 →
      access (.writeReg n v) s = { s with reply := none, cmd := v, run := .busy,
                                          status := { done := false, term := false, errCap := false,
                                                      errRange := false, errCmd := false } }) ∧
    (s.run = .idle → DescriptorNumber n.val →
      ∃ t, access (.writeReg n v) s = t ∧ t = { s with reply := none, desc := t.desc } ∧
        regValue n t = v ∧ ∀ k, k ≠ n → regValue k t = regValue k s) ∧
    (s.run = .idle → n ≠ 0 → ¬ DescriptorNumber n.val → access (.writeReg n v) s = { s with reply := none }) ∧
    (s.run ≠ .idle → access (.writeReg n v) s = { s with reply := none })

/-- 45_control.md R88: host memory accesses. A write stores the one word in IDLE below the depth and is ignored
otherwise; a read answers the word in IDLE and HALTED, 0 at or above the depth, and in BUSY a free value: the next of
`Config.busyReadWord`, a constant without a body, each used once (log 5). -/
def Obligations.MemoryPortAccess : Prop :=
  (∀ (s : State) (m : Buffer) (i : Nat) (v : Word),
    (s.run = .idle → Below i (depthOf s.cfg m) →
      ∃ t, access (.writeMem m i v) s = t ∧ t = { s with reply := none, car := t.car, pay := t.pay, out := t.out } ∧
        t.word m i = v ∧ ∀ k j, ¬ (k = m ∧ j = i) → t.word k j = s.word k j) ∧
    (s.run ≠ .idle ∨ ¬ Below i (depthOf s.cfg m) → access (.writeMem m i v) s = { s with reply := none })) ∧
  (∀ (s : State) (m : Buffer) (i : Nat),
    (s.run ≠ .busy → Below i (depthOf s.cfg m) →
      access (.readMem m i) s = { s with reply := some (s.word m i) }) ∧
    (s.run = .busy → Below i (depthOf s.cfg m) →
      access (.readMem m i) s = { s with reply := some (Config.busyReadWord s.draws), draws := s.draws + 1 }) ∧
    (¬ Below i (depthOf s.cfg m) → access (.readMem m i) s = { s with reply := some 0#32 }))

/-- 20_memory.md R42: while BUSY the engine owns everything. No host transaction but reset changes a register or a
memory (a memory read advances the model's count of free values, log 5); a memory read answers a word, below the depth
a free value (log 5); a register read answers the current value, STATUS with BUSY 1. -/
def Obligations.BusyEngineOwnsEverything : Prop :=
  ∀ (s : State) (op : PortOp), s.run = .busy → op ≠ .reset →
    (∃ r d, access op s = { s with reply := r, draws := d }) ∧
    (∀ m i, op = .readMem m i →
      ∃ w d, access op s = { s with reply := some w, draws := d } ∧
        (Below i (depthOf s.cfg m) → w = Config.busyReadWord s.draws)) ∧
    (∀ n, op = .readReg n → access op s = { s with reply := some (regValue n s) }) ∧
    (regValue 1 s).getLsbD 0 = true

/-- 20_memory.md R40: reads have no side effect, and a command run again on what it left writes the same values
again. -/
def Obligations.ReadsAndRepeatedCommandsChangeNothing : Prop :=
  (∀ (s : State) (n : Fin 32), ∃ r, access (.readReg n) s = { s with reply := r }) ∧
  (∀ (s : State) (m : Buffer) (i : Nat), ∃ r d, access (.readMem m i) s = { s with reply := r, draws := d }) ∧
  ∀ (i : Instr) (s t : State), exec i s = .next t → exec i t = .next t

/-! ### Reset -/

/-- 10_state.md R27: the state after reset: IDLE, every register reads 0, and no memory word has a known value (it
reads as the free value of log 4). -/
def Obligations.ResetStateValues : Prop :=
  State.reset.run = .idle ∧ (∀ n, regValue n State.reset = 0#32) ∧
  ∀ m i, State.reset.word m i = Config.powerOnWord State.reset.epoch m i

/-- 70_reset_and_hazards.md R101: the reset input, from any state: IDLE, every register reads 0, every memory word is
unspecified anew (the free value of the next epoch, log 4), and nothing of a command that was running appears. That the
depths stay is the model's choice (log 3: no step and no reset writes them), which R101 does not say. -/
def Obligations.ResetTransaction : Prop :=
  ∀ s : State, (access .reset s).run = .idle ∧ (∀ n, regValue n (access .reset s) = 0#32) ∧
    (∀ m i, (access .reset s).word m i = Config.powerOnWord (s.epoch + 1) m i) ∧ (access .reset s).cfg = s.cfg

/-! ### Exceptions -/

/-- 60_exceptions.md R95, R96: every error a command raises is reported, a command aborts when either condition holds,
and an exception changes nothing but STATUS and STATE; InvalidCommand excludes the other two. -/
def Obligations.ExceptionChangesOnlyStatus : Prop :=
  (∀ (i : Instr) (s : State), capacityError i s = true ∨ rangeError i s = true →
    exec i s = .next { s with run := .idle,
                              status := { done := true, term := false, errCap := capacityError i s,
                                          errRange := rangeError i s, errCmd := false } }) ∧
  (∀ s : State, s.cmd.toNat = 0 ∨ 10 ≤ s.cmd.toNat →
    complete s = .next { s with run := .idle,
                                status := { done := true, term := false, errCap := false, errRange := false,
                                            errCmd := true } }) ∧
  ∀ (i : Instr) (s t : State), exec i s = .next t →
    t.status.errCap = capacityError i s ∧ t.status.errRange = rangeError i s ∧ t.status.errCmd = false

/-- 60_exceptions.md R90: CapacityError is raised exactly when the capacity condition of the running embed command
holds, and by nothing else. -/
def Obligations.CapacityErrorIsRaisedExactly : Prop :=
  ∀ s t : State,
    (exec .embII s = .next t → (t.status.errCap = true ↔
      s.desc.carW.toNat < s.desc.payW.toNat ∨ s.desc.carH.toNat < s.desc.payH.toNat)) ∧
    (exec .embTI s = .next t → (t.status.errCap = true ↔
      3 * s.desc.carW.toNat * s.desc.carH.toNat < 8 * s.desc.payLen.toNat)) ∧
    (exec .embAA s = .next t → (t.status.errCap = true ↔ s.desc.carLen.toNat < 16 * s.desc.payLen.toNat)) ∧
    (exec .embTA s = .next t → (t.status.errCap = true ↔ s.desc.carLen.toNat < 8 * (s.desc.payLen.toNat + 1))) ∧
    (∀ i, i ∈ [Instr.revII, .revTI, .revAA, .revTA, .quit] → exec i s = .next t → t.status.errCap = false) ∧
    (s.cmd.toNat = 0 ∨ 10 ≤ s.cmd.toNat → complete s = .next t → t.status.errCap = false)

/-- 60_exceptions.md R91: RangeError is raised exactly when the range condition of the running command holds. -/
def Obligations.RangeErrorIsRaisedExactly : Prop :=
  ∀ s t : State,
    (exec .embII s = .next t → (t.status.errRange = true ↔
      Beyond (s.desc.carW.toNat * s.desc.carH.toNat) s.cfg.carDepth ∨
      Beyond (s.desc.payW.toNat * s.desc.payH.toNat) s.cfg.payDepth ∨
      Beyond (s.desc.carW.toNat * s.desc.carH.toNat) s.cfg.outDepth)) ∧
    (exec .revII s = .next t → (t.status.errRange = true ↔
      Beyond (s.desc.carW.toNat * s.desc.carH.toNat) s.cfg.carDepth ∨
      s.desc.carW.toNat < s.desc.payW.toNat ∨ s.desc.carH.toNat < s.desc.payH.toNat ∨
      Beyond (s.desc.payW.toNat * s.desc.payH.toNat) s.cfg.outDepth)) ∧
    (exec .embTI s = .next t → (t.status.errRange = true ↔
      Beyond (s.desc.carW.toNat * s.desc.carH.toNat) s.cfg.carDepth ∨
      Beyond s.desc.payLen.toNat s.cfg.payDepth ∨
      Beyond (s.desc.carW.toNat * s.desc.carH.toNat) s.cfg.outDepth)) ∧
    (exec .revTI s = .next t → (t.status.errRange = true ↔
      Beyond (s.desc.carW.toNat * s.desc.carH.toNat) s.cfg.carDepth ∨
      Beyond (3 * s.desc.carW.toNat * s.desc.carH.toNat / 8) s.cfg.outDepth)) ∧
    (exec .embAA s = .next t → (t.status.errRange = true ↔
      Beyond s.desc.carLen.toNat s.cfg.carDepth ∨ Beyond s.desc.payLen.toNat s.cfg.payDepth ∨
      Beyond s.desc.carLen.toNat s.cfg.outDepth)) ∧
    (exec .revAA s = .next t → (t.status.errRange = true ↔
      Beyond s.desc.carLen.toNat s.cfg.carDepth ∨ s.desc.carLen.toNat < 16 * s.desc.payLen.toNat ∨
      Beyond s.desc.payLen.toNat s.cfg.outDepth)) ∧
    (exec .embTA s = .next t → (t.status.errRange = true ↔
      Beyond s.desc.carLen.toNat s.cfg.carDepth ∨ Beyond s.desc.payLen.toNat s.cfg.payDepth ∨
      Beyond s.desc.carLen.toNat s.cfg.outDepth)) ∧
    (exec .revTA s = .next t → (t.status.errRange = true ↔
      Beyond s.desc.carLen.toNat s.cfg.carDepth ∨ Beyond (s.desc.carLen.toNat / 8) s.cfg.outDepth)) ∧
    (exec .quit s = .next t → t.status.errRange = false) ∧
    (s.cmd.toNat = 0 ∨ 10 ≤ s.cmd.toNat → complete s = .next t → t.status.errRange = false)

/-- 60_exceptions.md R94: no data value raises an exception. Whatever the memories hold, two runs of a command on one
descriptor raise the same errors; and whatever value a parameter register holds, the command raises none for it. What
a command copies from the parameter registers is said in the statements about EMB_AA and EMB_TA. -/
def Obligations.DataRaisesNoException : Prop :=
  ∀ (i : Instr) (s t s' t' : State) (p : AudioParams),
    s.cfg = t.cfg → { s.desc with params := p } = { t.desc with params := p } →
    exec i s = .next s' → exec i t = .next t' →
    s'.status.errCap = t'.status.errCap ∧ s'.status.errRange = t'.status.errRange ∧
    s'.status.errCmd = false ∧ t'.status.errCmd = false

/-- 60_exceptions.md R93: a terminator that is not found is no exception. A text reveal within its depths whose carrier
holds no terminator among its decoded bytes `b` (the marker of REV_TI three bytes 0x23, log 11) completes as `t`: DONE
1, all error bits 0, TERM 0, OUT_LEN 0 and every OUT word as it was; and `t` is the only way a text reveal ends with
no error and TERM 0. -/
def Obligations.MissingTerminatorIsNoException : Prop :=
  ∀ (s t : State) (b : Nat → Byte),
    t = { s with run := .idle, status := ⟨true, false, false, false, false⟩,
                 res := ⟨0#32, 0#32, 0#32, ⟨0#32, 0#32, 0#32, 0#32, 0#32⟩⟩ } →
    (¬ Beyond (s.desc.carW.toNat * s.desc.carH.toNat) s.cfg.carDepth →
      ¬ Beyond (3 * (s.desc.carW.toNat * s.desc.carH.toNat) / 8) s.cfg.outDepth →
      BytesOfStream b (fun k => (s.word .car (k / 3)).getLsbD (8 * (k % 3))) →
      (∀ j, j < 3 * s.desc.carW.toNat * s.desc.carH.toNat / 8 → ¬ MarkerEndsAt b j) →
      exec .revTI s = .next t) ∧
    (¬ Beyond s.desc.carLen.toNat s.cfg.carDepth → ¬ Beyond (s.desc.carLen.toNat / 8) s.cfg.outDepth →
      BytesOfStream b (fun k => (s.word .car k).getLsbD 0) →
      (∀ j, j < s.desc.carLen.toNat / 8 → b j ≠ 0#8) →
      exec .revTA s = .next t) ∧
    ∀ (i : Instr) (u : State), i ∈ [Instr.revTI, .revTA] → exec i s = .next u →
      u.status.errCap = false → u.status.errRange = false → u.status.term = false → u = t

/-- 40_bitplane_primitive.md R65: a successful codec command writes exactly the OUT indices of its result extent,
which the result registers give: `OUT_W * OUT_H` for an image, `OUT_LEN` for samples and text. -/
def Obligations.ResultExtentIsExactlyWhatIsWritten : Prop :=
  ∀ (i : Instr) (s t : State) (n k : Nat), i ≠ .quit → exec i s = .next t →
    t.status.errCap = false → t.status.errRange = false →
    (n = if i ∈ [Instr.embII, .revII, .embTI] then t.res.outW.toNat * t.res.outH.toNat else t.res.outLen.toNat) →
    (k < n → (t.out.get? k).isSome = true) ∧ (n ≤ k → t.out.get? k = s.out.get? k)

/-! ### The eight codec commands: word, conditions, abort, result, extent and frame -/

/-- 41_image_in_image.md R68: EMB_II. The index `y * W + x` is 20_memory.md R33's (log 13). -/
def Obligations.EmbIIEmbedsTopBits : Prop :=
  decode 1#32 = .ok .embII ∧
  ∀ (s : State) (cap rng : Bool),
    (cap = true ↔ s.desc.carW.toNat < s.desc.payW.toNat ∨ s.desc.carH.toNat < s.desc.payH.toNat) →
    (rng = true ↔ Beyond (s.desc.carW.toNat * s.desc.carH.toNat) s.cfg.carDepth ∨
      Beyond (s.desc.payW.toNat * s.desc.payH.toNat) s.cfg.payDepth ∨
      Beyond (s.desc.carW.toNat * s.desc.carH.toNat) s.cfg.outDepth) →
    (cap = true ∨ rng = true →
      exec .embII s = .next { s with run := .idle, status := ⟨true, false, cap, rng, false⟩ }) ∧
    (cap = false → rng = false →
    ∃ t, exec .embII s = .next t ∧
      t = { s with run := .idle, status := ⟨true, false, false, false, false⟩, out := t.out,
                   res := ⟨s.desc.carW, s.desc.carH, 0#32, ⟨0#32, 0#32, 0#32, 0#32, 0#32⟩⟩ } ∧
      (∀ x y b, x < s.desc.carW.toNat → y < s.desc.carH.toNat → b < 32 →
        (t.word .out (y * s.desc.carW.toNat + x)).getLsbD b =
          if x < s.desc.payW.toNat ∧ y < s.desc.payH.toNat ∧ (b = 0 ∨ b = 8 ∨ b = 16) then
            (s.word .pay (y * s.desc.payW.toNat + x)).getLsbD (b + 7)
          else (s.word .car (y * s.desc.carW.toNat + x)).getLsbD b) ∧
      ∀ k, s.desc.carW.toNat * s.desc.carH.toNat ≤ k → t.word .out k = s.word .out k)

/-- 41_image_in_image.md R69: REV_II. The index `y * W + x` is 20_memory.md R33's (log 13). -/
def Obligations.RevIIRecoversOneBitChannels : Prop :=
  decode 2#32 = .ok .revII ∧
  ∀ (s : State) (rng : Bool),
    (rng = true ↔ Beyond (s.desc.carW.toNat * s.desc.carH.toNat) s.cfg.carDepth ∨
      s.desc.carW.toNat < s.desc.payW.toNat ∨
      s.desc.carH.toNat < s.desc.payH.toNat ∨ Beyond (s.desc.payW.toNat * s.desc.payH.toNat) s.cfg.outDepth) →
    (rng = true → exec .revII s = .next { s with run := .idle, status := ⟨true, false, false, true, false⟩ }) ∧
    (rng = false →
    ∃ t, exec .revII s = .next t ∧
      t = { s with run := .idle, status := ⟨true, false, false, false, false⟩, out := t.out,
                   res := ⟨s.desc.payW, s.desc.payH, 0#32, ⟨0#32, 0#32, 0#32, 0#32, 0#32⟩⟩ } ∧
      (∀ x y b, x < s.desc.payW.toNat → y < s.desc.payH.toNat → b < 32 →
        (t.word .out (y * s.desc.payW.toNat + x)).getLsbD b =
          if b = 7 ∨ b = 15 ∨ b = 23 then (s.word .car (y * s.desc.carW.toNat + x)).getLsbD (b - 7)
          else decide (24 ≤ b)) ∧
      ∀ k, s.desc.payW.toNat * s.desc.payH.toNat ≤ k → t.word .out k = s.word .out k)

/-- 42_text_in_image.md R71: EMB_TI. -/
def Obligations.EmbTIEmbedsCharacterBits : Prop :=
  decode 3#32 = .ok .embTI ∧
  ∀ (s : State) (cap rng : Bool),
    (cap = true ↔ 3 * (s.desc.carW.toNat * s.desc.carH.toNat) < 8 * s.desc.payLen.toNat) →
    (rng = true ↔ Beyond (s.desc.carW.toNat * s.desc.carH.toNat) s.cfg.carDepth ∨
      Beyond s.desc.payLen.toNat s.cfg.payDepth ∨
      Beyond (s.desc.carW.toNat * s.desc.carH.toNat) s.cfg.outDepth) →
    (cap = true ∨ rng = true →
      exec .embTI s = .next { s with run := .idle, status := ⟨true, false, cap, rng, false⟩ }) ∧
    (cap = false → rng = false →
    ∃ t, exec .embTI s = .next t ∧
      t = { s with run := .idle, status := ⟨true, false, false, false, false⟩, out := t.out,
                   res := ⟨s.desc.carW, s.desc.carH, 0#32, ⟨0#32, 0#32, 0#32, 0#32, 0#32⟩⟩ } ∧
      (∀ p b, p < s.desc.carW.toNat * s.desc.carH.toNat → b < 32 →
        (t.word .out p).getLsbD b =
          if (b = 0 ∨ b = 8 ∨ b = 16) ∧ 3 * p + b / 8 < 8 * s.desc.payLen.toNat then
            (chr (s.word .pay ((3 * p + b / 8) / 8))).getLsbD (7 - (3 * p + b / 8) % 8)
          else (s.word .car p).getLsbD b) ∧
      ∀ k, s.desc.carW.toNat * s.desc.carH.toNat ≤ k → t.word .out k = s.word .out k)

/-- 42_text_in_image.md R72, 40_bitplane_primitive.md R57 (a): REV_TI. `b` is the sequence of decoded bytes, the
marker three bytes 0x23 (log 11). With a first marker ending at byte `j`, the `j - 2` bytes before it are the text,
refused only when that count does not fit 32 bits; without one the result is empty and no OUT word is written. R57 (a)
asks that refusal of an unbounded OUT_DEPTH only; giving it whatever OUT_DEPTH is is the model's (log 8, DEDUCED). -/
def Obligations.RevTIRecoversTextBeforeMarker : Prop :=
  decode 4#32 = .ok .revTI ∧
  ∀ (s : State) (rng : Bool) (b : Nat → Byte),
    (rng = true ↔ Beyond (s.desc.carW.toNat * s.desc.carH.toNat) s.cfg.carDepth ∨
      Beyond (3 * (s.desc.carW.toNat * s.desc.carH.toNat) / 8) s.cfg.outDepth) →
    (rng = true → exec .revTI s = .next { s with run := .idle, status := ⟨true, false, false, true, false⟩ }) ∧
    (rng = false →
    BytesOfStream b (fun k => (s.word .car (k / 3)).getLsbD (8 * (k % 3))) →
    (∀ j, j < 3 * s.desc.carW.toNat * s.desc.carH.toNat / 8 → MarkerEndsAt b j →
      (∀ k, k < j → ¬ MarkerEndsAt b k) →
      (j - 2 < 2 ^ 32 →
        ∃ t, exec .revTI s = .next t ∧
          t = { s with run := .idle, status := ⟨true, true, false, false, false⟩, out := t.out,
                       res := ⟨0#32, 0#32, BitVec.ofNat 32 (j - 2), ⟨0#32, 0#32, 0#32, 0#32, 0#32⟩⟩ } ∧
          (∀ k, k < j - 2 → t.word .out k = (b k).setWidth 32) ∧
          ∀ k, j - 2 ≤ k → t.word .out k = s.word .out k) ∧
      (2 ^ 32 ≤ j - 2 → exec .revTI s = .refused .textLengthOverflow)) ∧
    ((∀ j, j < 3 * s.desc.carW.toNat * s.desc.carH.toNat / 8 → ¬ MarkerEndsAt b j) →
      exec .revTI s =
        .next { s with run := .idle, status := ⟨true, false, false, false, false⟩,
                       res := ⟨0#32, 0#32, 0#32, ⟨0#32, 0#32, 0#32, 0#32, 0#32⟩⟩ }))

/-- 43_audio_in_audio.md R74: EMB_AA. -/
def Obligations.EmbAAEmbedsSampleBits : Prop :=
  decode 5#32 = .ok .embAA ∧
  ∀ (s : State) (cap rng : Bool),
    (cap = true ↔ s.desc.carLen.toNat < 16 * s.desc.payLen.toNat) →
    (rng = true ↔ Beyond s.desc.carLen.toNat s.cfg.carDepth ∨ Beyond s.desc.payLen.toNat s.cfg.payDepth ∨
      Beyond s.desc.carLen.toNat s.cfg.outDepth) →
    (cap = true ∨ rng = true →
      exec .embAA s = .next { s with run := .idle, status := ⟨true, false, cap, rng, false⟩ }) ∧
    (cap = false → rng = false →
    ∃ t, exec .embAA s = .next t ∧
      t = { s with run := .idle, status := ⟨true, false, false, false, false⟩, out := t.out,
                   res := ⟨0#32, 0#32, s.desc.carLen, s.desc.params⟩ } ∧
      (∀ k b, k < s.desc.carLen.toNat → b < 32 →
        (t.word .out k).getLsbD b =
          if b = 0 ∧ k < 16 * s.desc.payLen.toNat then
            (samp (s.word .pay (k / 16))).getLsbD (k % 16)
          else (s.word .car k).getLsbD b) ∧
      ∀ k, s.desc.carLen.toNat ≤ k → t.word .out k = s.word .out k)

/-- 43_audio_in_audio.md R75: REV_AA. -/
def Obligations.RevAARecoversSamples : Prop :=
  decode 6#32 = .ok .revAA ∧
  ∀ (s : State) (rng : Bool),
    (rng = true ↔ Beyond s.desc.carLen.toNat s.cfg.carDepth ∨ s.desc.carLen.toNat < 16 * s.desc.payLen.toNat ∨
      Beyond s.desc.payLen.toNat s.cfg.outDepth) →
    (rng = true → exec .revAA s = .next { s with run := .idle, status := ⟨true, false, false, true, false⟩ }) ∧
    (rng = false →
    ∃ t, exec .revAA s = .next t ∧
      t = { s with run := .idle, status := ⟨true, false, false, false, false⟩, out := t.out,
                   res := ⟨0#32, 0#32, s.desc.payLen,
                     ⟨1#32, 16#32, s.desc.params.frate, s.desc.payLen, s.desc.params.comp⟩⟩ } ∧
      (∀ i b, i < s.desc.payLen.toNat → b < 32 →
        (t.word .out i).getLsbD b = (decide (b < 16) && (s.word .car (16 * i + b)).getLsbD 0)) ∧
      ∀ k, s.desc.payLen.toNat ≤ k → t.word .out k = s.word .out k)

/-- 44_text_in_audio.md R77: EMB_TA. -/
def Obligations.EmbTAEmbedsTextAndTerminator : Prop :=
  decode 7#32 = .ok .embTA ∧
  ∀ (s : State) (cap rng : Bool),
    (cap = true ↔ s.desc.carLen.toNat < 8 * (s.desc.payLen.toNat + 1)) →
    (rng = true ↔ Beyond s.desc.carLen.toNat s.cfg.carDepth ∨ Beyond s.desc.payLen.toNat s.cfg.payDepth ∨
      Beyond s.desc.carLen.toNat s.cfg.outDepth) →
    (cap = true ∨ rng = true →
      exec .embTA s = .next { s with run := .idle, status := ⟨true, false, cap, rng, false⟩ }) ∧
    (cap = false → rng = false →
    ∃ t, exec .embTA s = .next t ∧
      t = { s with run := .idle, status := ⟨true, false, false, false, false⟩, out := t.out,
                   res := ⟨0#32, 0#32, s.desc.carLen, s.desc.params⟩ } ∧
      (∀ k b, k < s.desc.carLen.toNat → b < 32 →
        (t.word .out k).getLsbD b =
          if b = 0 ∧ k < 8 * s.desc.payLen.toNat then (chr (s.word .pay (k / 8))).getLsbD (7 - k % 8)
          else if b = 0 ∧ k < 8 * (s.desc.payLen.toNat + 1) then false
          else (s.word .car k).getLsbD b) ∧
      ∀ k, s.desc.carLen.toNat ≤ k → t.word .out k = s.word .out k)

/-- 44_text_in_audio.md R78: REV_TA. `b` is the sequence of decoded bytes. -/
def Obligations.RevTARecoversTextBeforeZero : Prop :=
  decode 8#32 = .ok .revTA ∧
  ∀ (s : State) (rng : Bool) (b : Nat → Byte),
    (rng = true ↔ Beyond s.desc.carLen.toNat s.cfg.carDepth ∨ Beyond (s.desc.carLen.toNat / 8) s.cfg.outDepth) →
    (rng = true → exec .revTA s = .next { s with run := .idle, status := ⟨true, false, false, true, false⟩ }) ∧
    (rng = false →
    BytesOfStream b (fun k => (s.word .car k).getLsbD 0) →
    (∀ j, j < s.desc.carLen.toNat / 8 → b j = 0#8 → (∀ k, k < j → b k ≠ 0#8) →
      ∃ t, exec .revTA s = .next t ∧
        t = { s with run := .idle, status := ⟨true, true, false, false, false⟩, out := t.out,
                     res := ⟨0#32, 0#32, BitVec.ofNat 32 j, ⟨0#32, 0#32, 0#32, 0#32, 0#32⟩⟩ } ∧
        t.res.outLen.toNat = j ∧
        (∀ k, k < j → t.word .out k = (b k).setWidth 32) ∧
        ∀ k, j ≤ k → t.word .out k = s.word .out k) ∧
    ((∀ j, j < s.desc.carLen.toNat / 8 → b j ≠ 0#8) →
      exec .revTA s =
        .next { s with run := .idle, status := ⟨true, false, false, false, false⟩,
                       res := ⟨0#32, 0#32, 0#32, ⟨0#32, 0#32, 0#32, 0#32, 0#32⟩⟩ }))

/-! ### The bit-plane primitive and the bitstreams -/

/-- 40_bitplane_primitive.md R53, R54: LSB substitution changes bit `i` to `b` and no other bit, extraction reads bit
`i`, and the laws of substitution, which R53 marks as derived from its definition. -/
def Obligations.LsbSubstitutionLaws : Prop :=
  ∀ (w : Word) (i k : Nat) (a b : Bool), i ∈ [0, 8, 16] → k ∈ [0, 8, 16] →
    (∀ j, j < 32 → (setlsb w i b).getLsbD j = if j = i then b else w.getLsbD j) ∧
    getlsb w i = w.getLsbD i ∧ getlsb (setlsb w i b) i = b ∧
    setlsb w i (w.getLsbD i) = w ∧
    setlsb (setlsb w i a) i b = setlsb w i b ∧
    (i ≠ k → setlsb (setlsb w i a) k b = setlsb (setlsb w k b) i a)

/-- 40_bitplane_primitive.md R55: the numeric effect on an 8-bit channel and on a 16-bit signed sample: unchanged
when the bit is there already, one less when an odd value takes a 0, one more when an even value takes a 1; no
carry leaves the channel or the sample. `signed16` is 10_state.md R25's (log 14). -/
def Obligations.LsbSubstitutionMovesValueByAtMostOne : Prop :=
  (∀ (w : Word) (c : Nat) (b : Bool), c < 3 →
    chan (setlsb w (8 * c) b) c = (chan w c &&& 0xFE#8) ||| (BitVec.ofBool b).setWidth 8 ∧
    ((chan (setlsb w (8 * c) b) c).toNat : Int)
      = (chan w c).toNat - (if (chan w c).getLsbD 0 then 1 else 0) + (if b then 1 else 0) ∧
    ∀ d, d < 4 → d ≠ c → chan (setlsb w (8 * c) b) d = chan w d) ∧
  (∀ (w : Word) (b : Bool),
    samp (setlsb w 0 b) = (samp w &&& 0xFFFE#16) ||| (BitVec.ofBool b).setWidth 16 ∧
    signed16 (samp (setlsb w 0 b))
      = signed16 (samp w) - (if w.getLsbD 0 then 1 else 0) + (if b then 1 else 0) ∧
    -32768 ≤ signed16 (samp (setlsb w 0 b)) ∧ signed16 (samp (setlsb w 0 b)) ≤ 32767 ∧
    (setlsb w 0 b).extractLsb' 16 16 = w.extractLsb' 16 16)

/-- 40_bitplane_primitive.md R58, R59: a text's bits most significant first (log 12), grouped back into its bytes, a short
last group making no byte; and that the bits of a text group back to it, whatever follows them, which R59 marks as
derived from R58. -/
def Obligations.TextBitsGroupBack : Prop :=
  (∀ t : List Byte, (textbits t).length = 8 * t.length) ∧
  (∀ (t : List Byte) (k : Nat), k < 8 * t.length →
    (textbits t)[k]? = some ((t.getD (k / 8) 0#8).getLsbD (7 - k % 8))) ∧
  (∀ s : List Bool, (bytesof s).length = s.length / 8) ∧
  (∀ (s : List Bool) (j m : Nat), j < s.length / 8 → m < 8 →
    ((bytesof s).getD j 0#8).getLsbD (7 - m) = s.getD (8 * j + m) false) ∧
  ∀ (t : List Byte) (r : List Bool),
    bytesof (textbits t) = t ∧ (bytesof (textbits t ++ r)).take t.length = t

/-- 40_bitplane_primitive.md R60: a sample sequence's bits, least significant first, and back. -/
def Obligations.SampleBitsRoundTrip : Prop :=
  (∀ p : List Half, (samplebits p).length = 16 * p.length) ∧
  (∀ (p : List Half) (i b : Nat), i < p.length → b < 16 →
    (samplebits p)[16 * i + b]? = some ((p.getD i 0#16).getLsbD b)) ∧
  (∀ (s : List Bool) (n i b : Nat), 16 * n ≤ s.length → i < n → b < 16 →
    (samplesof s n).length = n ∧ ((samplesof s n).getD i 0#16).getLsbD b = s.getD (16 * i + b) false) ∧
  ∀ (p : List Half) (r : List Bool), samplesof (samplebits p ++ r) p.length = p

/-- 40_bitplane_primitive.md R61, R62: after an embed the carrier's LSBs begin with the stream, and every bit that
is not one of the addressed positions is the carrier's. -/
def Obligations.EmbeddedStreamIsReadBack : Prop :=
  (∀ (cover : List Word) (s : List Bool), s.length ≤ 3 * cover.length →
    (embedPixels cover s).length = cover.length ∧
    (pixelbits (embedPixels cover s)).take s.length = s ∧
    ∀ p b, p < cover.length → ¬ ((b = 0 ∨ b = 8 ∨ b = 16) ∧ 3 * p + b / 8 < s.length) →
      ((embedPixels cover s).getD p 0#32).getLsbD b = (cover.getD p 0#32).getLsbD b) ∧
  (∀ (cover : List Word) (s : List Bool), s.length ≤ cover.length →
    (embedSamples cover s).length = cover.length ∧
    (samplelsbs (embedSamples cover s)).take s.length = s ∧
    ∀ k b, k < cover.length → ¬ (b = 0 ∧ k < s.length) →
      ((embedSamples cover s).getD k 0#32).getLsbD b = (cover.getD k 0#32).getLsbD b)

/-- 40_bitplane_primitive.md R66: after a successful embed, OUT differs from CAR only in payload-carrying LSBs, and
CAR is not changed at all. -/
def Obligations.EmbedIsNonDestructive : Prop :=
  ∀ (i : Instr) (s t : State), i ∈ [Instr.embII, .embTI, .embAA, .embTA] →
    exec i s = .next t → t.status.errCap = false → t.status.errRange = false →
    (∀ k, t.word .car k = s.word .car k) ∧
    ∀ k b, k < (if i = .embII ∨ i = .embTI then s.desc.carW.toNat * s.desc.carH.toNat else s.desc.carLen.toNat) →
      (t.word .out k).getLsbD b ≠ (s.word .car k).getLsbD b →
      (i = .embII → (b = 0 ∨ b = 8 ∨ b = 16) ∧ k % s.desc.carW.toNat < s.desc.payW.toNat ∧
        k / s.desc.carW.toNat < s.desc.payH.toNat) ∧
      (i = .embTI → (b = 0 ∨ b = 8 ∨ b = 16) ∧ 3 * k + b / 8 < 8 * s.desc.payLen.toNat) ∧
      (i = .embAA → b = 0 ∧ k < 16 * s.desc.payLen.toNat) ∧
      (i = .embTA → b = 0 ∧ k < 8 * (s.desc.payLen.toNat + 1))

/-! ### Round trips -/

/-- 41_image_in_image.md R70: the round trip of an image, up to one bit a channel. -/
def Obligations.ImageInImageRoundTrip : Prop :=
  ∀ s : State, Admits .embII s →
    ∃ t v, exec .embII s = .next t ∧
      exec .revII (moveOutToCar (s.desc.carW.toNat * s.desc.carH.toNat) t) = .next v ∧
      v.status = ⟨true, false, false, false, false⟩ ∧ v.res.outW = s.desc.payW ∧ v.res.outH = s.desc.payH ∧
      ∀ x y, x < s.desc.payW.toNat → y < s.desc.payH.toNat →
        (∀ c, c < 3 → chan (v.word .out (y * s.desc.payW.toNat + x)) c
          = (chan (s.word .pay (y * s.desc.payW.toNat + x)) c >>> 7) <<< 7) ∧
        chan (v.word .out (y * s.desc.payW.toNat + x)) 3 = 255#8

/-- 42_text_in_image.md R73: the round trip of a text whose first marker is the appended one. -/
def Obligations.TextInImageRoundTrip : Prop :=
  ∀ (s : State) (text : List Byte), Admits .embTI s →
    payText s = text ++ [0x23#8, 0x23#8, 0x23#8] →
    (∀ j, j < text.length → ¬ ((payText s)[j]? = some 0x23#8 ∧ (payText s)[j + 1]? = some 0x23#8 ∧
      (payText s)[j + 2]? = some 0x23#8)) →
    ∃ t v, exec .embTI s = .next t ∧
      exec .revTI (moveOutToCar (s.desc.carW.toNat * s.desc.carH.toNat) t) = .next v ∧
      v.status = ⟨true, true, false, false, false⟩ ∧ v.res.outLen.toNat = text.length ∧
      ∀ k, k < text.length → some (v.word .out k) = (text[k]?).map fun c => c.setWidth 32

/-- 43_audio_in_audio.md R76: the round trip of a secret sample sequence, every one of its 16 bits. -/
def Obligations.AudioInAudioRoundTrip : Prop :=
  ∀ s : State, Admits .embAA s →
    ∃ t v, exec .embAA s = .next t ∧ exec .revAA (moveOutToCar s.desc.carLen.toNat t) = .next v ∧
      v.status = ⟨true, false, false, false, false⟩ ∧ v.res.outLen = s.desc.payLen ∧
      ∀ k, k < s.desc.payLen.toNat → v.word .out k = (samp (s.word .pay k)).setWidth 32

/-- 44_text_in_audio.md R79: the round trip of a text without a zero code. -/
def Obligations.TextInAudioRoundTrip : Prop :=
  ∀ s : State, Admits .embTA s → (∀ k, k < s.desc.payLen.toNat → chr (s.word .pay k) ≠ 0#8) →
    ∃ t v, exec .embTA s = .next t ∧ exec .revTA (moveOutToCar s.desc.carLen.toNat t) = .next v ∧
      v.status = ⟨true, true, false, false, false⟩ ∧ v.res.outLen = s.desc.payLen ∧
      ∀ k, k < s.desc.payLen.toNat → v.word .out k = (chr (s.word .pay k)).setWidth 32

/-! ### Whole-machine rules -/

/-- 10_state.md R10, R14, R23: no command writes a descriptor register, CMD, CAR or PAY (nor the model's depths,
agenda, reply and counters). -/
def Obligations.CommandsNeverWriteTheirInputs : Prop :=
  ∀ (i : Instr) (s t : State), exec i s = .next t →
    t = { s with run := t.run, status := t.status, res := t.res, out := t.out } ∧
    (∀ k, t.word .car k = s.word .car k) ∧ ∀ k, t.word .pay k = s.word .pay k

/-- 10_state.md R8, 30_encoding.md R47: a command's effect is a function of the registers listed for it and of the
words of CAR and PAY it reads, and of nothing else. -/
def Obligations.CommandDependsOnlyOnItsInputs : Prop :=
  ∀ (i : Instr) (s t s' : State), SameInputs i s t → exec i s = .next s' →
    ∃ t', exec i t = .next t' ∧ SameEffect s s' t t'

/-- 40_bitplane_primitive.md R57 (a): no command faults, and none is refused but a text-in-image reveal of a carrier
of 2^33 pixels or more. -/
def Obligations.OnlyGiantTextRevealsAreRefused : Prop :=
  ∀ (i : Instr) (s : State), (∃ t, exec i s = .next t) ∨
    (i = .revTI ∧ 2 ^ 33 ≤ s.desc.carW.toNat * s.desc.carH.toNat ∧ exec i s = .refused .textLengthOverflow)

/-- 10_state.md R9: every change of STATE. Reset gives IDLE; a write of CMD in IDLE gives BUSY; the engine's turn
takes BUSY to HALTED when CMD is QUIT's word and to IDLE otherwise; no other transition exists. -/
def Obligations.RunStateTransitions : Prop :=
  ∀ s t : State, step s = .next t →
    (∃ rest, s.agenda = .port .reset :: rest ∧ t.run = .idle) ∨
    (∃ v rest, s.agenda = .port (.writeReg 0 v) :: rest ∧ s.run = .idle ∧ t.run = .busy) ∨
    (∃ rest, EngineMoves s rest ∧ s.run = .busy ∧ t.run = if s.cmd = 9#32 then .halted else .idle) ∨
    (t.run = s.run ∧ (s.run = .busy → ¬ ∃ rest, EngineMoves s rest))

/-- 10_state.md R13, R16, R17, R23: the descriptor, CAR and PAY change only by a reset or by a host write in IDLE. -/
def Obligations.InputsChangeOnlyByTheHost : Prop :=
  ∀ s t : State, step s = .next t →
    (t.desc ≠ s.desc → (∃ rest, s.agenda = .port .reset :: rest) ∨
      ∃ n v rest, s.run = .idle ∧ DescriptorNumber n.val ∧ s.agenda = .port (.writeReg n v) :: rest) ∧
    (∀ m k, m ≠ .out → t.word m k ≠ s.word m k → (∃ rest, s.agenda = .port .reset :: rest) ∨
      ∃ v rest, s.run = .idle ∧ s.agenda = .port (.writeMem m k v) :: rest)

/-- 10_state.md R15, 20_memory.md R28: the invariant holds right after reset. -/
def Obligations.InvariantHoldsAtReset : Prop := Inv State.reset

/-- 10_state.md R15, 20_memory.md R28: every step keeps the invariant: STATUS's flags agree with STATE and exclude
each other as the rule says, and the memories stay in canonical form and within their depths. -/
def Obligations.EveryStepKeepsTheInvariant : Prop :=
  ∀ s t : State, Inv s → step s = .next t → Inv t

/-- 45_control.md R82, 70_reset_and_hazards.md R114: a BUSY engine completes. Taking every turn of the agenda and one
more leaves the agenda empty and the engine not BUSY, unless a command on the way is refused. -/
def Obligations.BusyEngineCompletes : Prop :=
  ∀ s : State,
    (∃ t, steps (s.agenda.length + 1) s = .next t ∧ t.run ≠ .busy ∧ t.agenda = []) ∨
    steps (s.agenda.length + 1) s = .refused .textLengthOverflow

/-! ### The host's notation -/

/-- 30_encoding.md R51: a mnemonic line from IDLE starts the command, completes it, and ends with a read of STATUS that
finds BUSY 0, however many polls come before. -/
def Obligations.CommandLineCompletesAndReadsStatus : Prop :=
  ∀ (s : State) (i : Instr) (polls : Nat), s.run = .idle →
    (∃ t, (Line.command i polls).run s = .next t ∧ t.cmd = encode i ∧ t.run ≠ .busy ∧ t.status.done = true ∧
      t.agenda = [] ∧ t.reply = some (regValue 1 t)) ∨
    (i = .revTI ∧ (Line.command i polls).run s = .refused .textLengthOverflow)

/-- 30_encoding.md R52: MOVE OUT, CAR, n carries the words of OUT into CAR and changes nothing else but the answer, and
the agenda ends empty. The line's stores carry the words OUT holds where the line starts, not the answers of its loads:
the model's choice (log 16), the same words from IDLE. The answer is left free. -/
def Obligations.MoveCarriesOutIntoCar : Prop :=
  ∀ (s : State) (n : Nat), s.run = .idle → ¬ Beyond n s.cfg.outDepth → ¬ Beyond n s.cfg.carDepth →
    ∃ t, (Line.move n).run s = .next t ∧
      t = { s with agenda := [], reply := t.reply, car := t.car } ∧
      (∀ k, k < n → t.word .car k = s.word .out k) ∧ ∀ k, n ≤ k → t.word .car k = s.word .car k

/-- 30_encoding.md R52, 10_state.md R24, R25: the words PIX and SMP store. -/
def Obligations.PixelAndSampleWords : Prop :=
  (∀ r g b a : Byte,
    chan (pixWord r.toNat g.toNat b.toNat a.toNat) 0 = r ∧ chan (pixWord r.toNat g.toNat b.toNat a.toNat) 1 = g ∧
    chan (pixWord r.toNat g.toNat b.toNat a.toNat) 2 = b ∧ chan (pixWord r.toNat g.toNat b.toNat a.toNat) 3 = a) ∧
  (∀ v : Int, -32768 ≤ v → v ≤ 32767 →
    signed16 (samp (smpWord v)) = v ∧ (smpWord v).toNat < 65536)
end

