-- ==== Sys2Proof/Laws/State.lean ====
section
/-! SUPPORT. What each named update of State leaves in each field, by rfl, so that no proof unfolds a record
update. -/

namespace Sys2Proof.Machine

variable (s : State)

/-! ### start -/

@[simp] theorem start_cfg (v : Word) : (start v s).cfg = s.cfg := rfl
@[simp] theorem start_run (v : Word) : (start v s).run = .busy := rfl
@[simp] theorem start_status (v : Word) : (start v s).status = startFlags := rfl
@[simp] theorem start_cmd (v : Word) : (start v s).cmd = v := rfl
@[simp] theorem start_desc (v : Word) : (start v s).desc = s.desc := rfl
@[simp] theorem start_res (v : Word) : (start v s).res = s.res := rfl
@[simp] theorem start_car (v : Word) : (start v s).car = s.car := rfl
@[simp] theorem start_pay (v : Word) : (start v s).pay = s.pay := rfl
@[simp] theorem start_out (v : Word) : (start v s).out = s.out := rfl
@[simp] theorem start_agenda (v : Word) : (start v s).agenda = s.agenda := rfl
@[simp] theorem start_reply (v : Word) : (start v s).reply = s.reply := rfl
@[simp] theorem start_epoch (v : Word) : (start v s).epoch = s.epoch := rfl
@[simp] theorem start_draws (v : Word) : (start v s).draws = s.draws := rfl

/-! ### commit -/

@[simp] theorem commit_cfg (r : Result) : (commit r s).cfg = s.cfg := rfl
@[simp] theorem commit_run (r : Result) : (commit r s).run = .idle := rfl
@[simp] theorem commit_status (r : Result) : (commit r s).status = successFlags r.term := rfl
@[simp] theorem commit_cmd (r : Result) : (commit r s).cmd = s.cmd := rfl
@[simp] theorem commit_desc (r : Result) : (commit r s).desc = s.desc := rfl
@[simp] theorem commit_res (r : Result) : (commit r s).res = r.regs := rfl
@[simp] theorem commit_car (r : Result) : (commit r s).car = s.car := rfl
@[simp] theorem commit_pay (r : Result) : (commit r s).pay = s.pay := rfl
@[simp] theorem commit_out (r : Result) : (commit r s).out = s.out.setPrefix r.words := rfl
@[simp] theorem commit_agenda (r : Result) : (commit r s).agenda = s.agenda := rfl
@[simp] theorem commit_reply (r : Result) : (commit r s).reply = s.reply := rfl
@[simp] theorem commit_epoch (r : Result) : (commit r s).epoch = s.epoch := rfl
@[simp] theorem commit_draws (r : Result) : (commit r s).draws = s.draws := rfl

/-! ### takeException -/

@[simp] theorem takeException_cfg (cap rng cmd : Bool) : (takeException cap rng cmd s).cfg = s.cfg := rfl
@[simp] theorem takeException_run (cap rng cmd : Bool) : (takeException cap rng cmd s).run = .idle := rfl
@[simp] theorem takeException_status (cap rng cmd : Bool) : (takeException cap rng cmd s).status =
    exceptionFlags cap rng cmd := rfl
@[simp] theorem takeException_cmd (cap rng cmd : Bool) : (takeException cap rng cmd s).cmd = s.cmd := rfl
@[simp] theorem takeException_desc (cap rng cmd : Bool) : (takeException cap rng cmd s).desc = s.desc := rfl
@[simp] theorem takeException_res (cap rng cmd : Bool) : (takeException cap rng cmd s).res = s.res := rfl
@[simp] theorem takeException_car (cap rng cmd : Bool) : (takeException cap rng cmd s).car = s.car := rfl
@[simp] theorem takeException_pay (cap rng cmd : Bool) : (takeException cap rng cmd s).pay = s.pay := rfl
@[simp] theorem takeException_out (cap rng cmd : Bool) : (takeException cap rng cmd s).out = s.out := rfl
@[simp] theorem takeException_agenda (cap rng cmd : Bool) : (takeException cap rng cmd s).agenda = s.agenda := rfl
@[simp] theorem takeException_reply (cap rng cmd : Bool) : (takeException cap rng cmd s).reply = s.reply := rfl
@[simp] theorem takeException_epoch (cap rng cmd : Bool) : (takeException cap rng cmd s).epoch = s.epoch := rfl
@[simp] theorem takeException_draws (cap rng cmd : Bool) : (takeException cap rng cmd s).draws = s.draws := rfl

/-! ### halt -/

@[simp] theorem halt_cfg : (halt s).cfg = s.cfg := rfl
@[simp] theorem halt_run : (halt s).run = .halted := rfl
@[simp] theorem halt_status : (halt s).status = quitFlags := rfl
@[simp] theorem halt_cmd : (halt s).cmd = s.cmd := rfl
@[simp] theorem halt_desc : (halt s).desc = s.desc := rfl
@[simp] theorem halt_res : (halt s).res = s.res := rfl
@[simp] theorem halt_car : (halt s).car = s.car := rfl
@[simp] theorem halt_pay : (halt s).pay = s.pay := rfl
@[simp] theorem halt_out : (halt s).out = s.out := rfl
@[simp] theorem halt_agenda : (halt s).agenda = s.agenda := rfl
@[simp] theorem halt_reply : (halt s).reply = s.reply := rfl
@[simp] theorem halt_epoch : (halt s).epoch = s.epoch := rfl
@[simp] theorem halt_draws : (halt s).draws = s.draws := rfl

/-! ### resetEngine -/

@[simp] theorem resetEngine_cfg : (resetEngine s).cfg = s.cfg := rfl
@[simp] theorem resetEngine_run : (resetEngine s).run = .idle := rfl
@[simp] theorem resetEngine_status : (resetEngine s).status = Status.clear := rfl
@[simp] theorem resetEngine_cmd : (resetEngine s).cmd = 0#32 := rfl
@[simp] theorem resetEngine_desc : (resetEngine s).desc = ⟨0#32, 0#32, 0#32, 0#32, 0#32, 0#32, .zero⟩ := rfl
@[simp] theorem resetEngine_res : (resetEngine s).res = ⟨0#32, 0#32, 0#32, .zero⟩ := rfl
@[simp] theorem resetEngine_car : (resetEngine s).car = .unwritten := rfl
@[simp] theorem resetEngine_pay : (resetEngine s).pay = .unwritten := rfl
@[simp] theorem resetEngine_out : (resetEngine s).out = .unwritten := rfl
@[simp] theorem resetEngine_agenda : (resetEngine s).agenda = s.agenda := rfl
@[simp] theorem resetEngine_reply : (resetEngine s).reply = none := rfl
@[simp] theorem resetEngine_epoch : (resetEngine s).epoch = s.epoch + 1 := rfl
@[simp] theorem resetEngine_draws : (resetEngine s).draws = s.draws := rfl

/-! ### setDesc -/

@[simp] theorem setDesc_cfg (d : Descriptor) : (s.setDesc d).cfg = s.cfg := rfl
@[simp] theorem setDesc_run (d : Descriptor) : (s.setDesc d).run = s.run := rfl
@[simp] theorem setDesc_status (d : Descriptor) : (s.setDesc d).status = s.status := rfl
@[simp] theorem setDesc_cmd (d : Descriptor) : (s.setDesc d).cmd = s.cmd := rfl
@[simp] theorem setDesc_desc (d : Descriptor) : (s.setDesc d).desc = d := rfl
@[simp] theorem setDesc_res (d : Descriptor) : (s.setDesc d).res = s.res := rfl
@[simp] theorem setDesc_car (d : Descriptor) : (s.setDesc d).car = s.car := rfl
@[simp] theorem setDesc_pay (d : Descriptor) : (s.setDesc d).pay = s.pay := rfl
@[simp] theorem setDesc_out (d : Descriptor) : (s.setDesc d).out = s.out := rfl
@[simp] theorem setDesc_agenda (d : Descriptor) : (s.setDesc d).agenda = s.agenda := rfl
@[simp] theorem setDesc_reply (d : Descriptor) : (s.setDesc d).reply = s.reply := rfl
@[simp] theorem setDesc_epoch (d : Descriptor) : (s.setDesc d).epoch = s.epoch := rfl
@[simp] theorem setDesc_draws (d : Descriptor) : (s.setDesc d).draws = s.draws := rfl

/-! ### respond -/

@[simp] theorem respond_cfg (r : Option Word) : (s.respond r).cfg = s.cfg := rfl
@[simp] theorem respond_run (r : Option Word) : (s.respond r).run = s.run := rfl
@[simp] theorem respond_status (r : Option Word) : (s.respond r).status = s.status := rfl
@[simp] theorem respond_cmd (r : Option Word) : (s.respond r).cmd = s.cmd := rfl
@[simp] theorem respond_desc (r : Option Word) : (s.respond r).desc = s.desc := rfl
@[simp] theorem respond_res (r : Option Word) : (s.respond r).res = s.res := rfl
@[simp] theorem respond_car (r : Option Word) : (s.respond r).car = s.car := rfl
@[simp] theorem respond_pay (r : Option Word) : (s.respond r).pay = s.pay := rfl
@[simp] theorem respond_out (r : Option Word) : (s.respond r).out = s.out := rfl
@[simp] theorem respond_agenda (r : Option Word) : (s.respond r).agenda = s.agenda := rfl
@[simp] theorem respond_reply (r : Option Word) : (s.respond r).reply = r := rfl
@[simp] theorem respond_epoch (r : Option Word) : (s.respond r).epoch = s.epoch := rfl
@[simp] theorem respond_draws (r : Option Word) : (s.respond r).draws = s.draws := rfl

/-! ### setAgenda -/

@[simp] theorem setAgenda_cfg (a : List Turn) : (s.setAgenda a).cfg = s.cfg := rfl
@[simp] theorem setAgenda_run (a : List Turn) : (s.setAgenda a).run = s.run := rfl
@[simp] theorem setAgenda_status (a : List Turn) : (s.setAgenda a).status = s.status := rfl
@[simp] theorem setAgenda_cmd (a : List Turn) : (s.setAgenda a).cmd = s.cmd := rfl
@[simp] theorem setAgenda_desc (a : List Turn) : (s.setAgenda a).desc = s.desc := rfl
@[simp] theorem setAgenda_res (a : List Turn) : (s.setAgenda a).res = s.res := rfl
@[simp] theorem setAgenda_car (a : List Turn) : (s.setAgenda a).car = s.car := rfl
@[simp] theorem setAgenda_pay (a : List Turn) : (s.setAgenda a).pay = s.pay := rfl
@[simp] theorem setAgenda_out (a : List Turn) : (s.setAgenda a).out = s.out := rfl
@[simp] theorem setAgenda_agenda (a : List Turn) : (s.setAgenda a).agenda = a := rfl
@[simp] theorem setAgenda_reply (a : List Turn) : (s.setAgenda a).reply = s.reply := rfl
@[simp] theorem setAgenda_epoch (a : List Turn) : (s.setAgenda a).epoch = s.epoch := rfl
@[simp] theorem setAgenda_draws (a : List Turn) : (s.setAgenda a).draws = s.draws := rfl

/-! ### drawReply -/

@[simp] theorem drawReply_cfg : (drawReply s).cfg = s.cfg := rfl
@[simp] theorem drawReply_run : (drawReply s).run = s.run := rfl
@[simp] theorem drawReply_status : (drawReply s).status = s.status := rfl
@[simp] theorem drawReply_cmd : (drawReply s).cmd = s.cmd := rfl
@[simp] theorem drawReply_desc : (drawReply s).desc = s.desc := rfl
@[simp] theorem drawReply_res : (drawReply s).res = s.res := rfl
@[simp] theorem drawReply_car : (drawReply s).car = s.car := rfl
@[simp] theorem drawReply_pay : (drawReply s).pay = s.pay := rfl
@[simp] theorem drawReply_out : (drawReply s).out = s.out := rfl
@[simp] theorem drawReply_agenda : (drawReply s).agenda = s.agenda := rfl
@[simp] theorem drawReply_reply : (drawReply s).reply = some (Config.busyReadWord s.draws) := rfl
@[simp] theorem drawReply_epoch : (drawReply s).epoch = s.epoch := rfl
@[simp] theorem drawReply_draws : (drawReply s).draws = s.draws + 1 := rfl

/-! ### setMem -/

@[simp] theorem setMem_cfg (m : Buffer) (v : Memory) : (s.setMem m v).cfg = s.cfg := by cases m <;> rfl
@[simp] theorem setMem_run (m : Buffer) (v : Memory) : (s.setMem m v).run = s.run := by cases m <;> rfl
@[simp] theorem setMem_status (m : Buffer) (v : Memory) : (s.setMem m v).status = s.status := by cases m <;> rfl
@[simp] theorem setMem_cmd (m : Buffer) (v : Memory) : (s.setMem m v).cmd = s.cmd := by cases m <;> rfl
@[simp] theorem setMem_desc (m : Buffer) (v : Memory) : (s.setMem m v).desc = s.desc := by cases m <;> rfl
@[simp] theorem setMem_res (m : Buffer) (v : Memory) : (s.setMem m v).res = s.res := by cases m <;> rfl
@[simp] theorem setMem_agenda (m : Buffer) (v : Memory) : (s.setMem m v).agenda = s.agenda := by cases m <;> rfl
@[simp] theorem setMem_reply (m : Buffer) (v : Memory) : (s.setMem m v).reply = s.reply := by cases m <;> rfl
@[simp] theorem setMem_epoch (m : Buffer) (v : Memory) : (s.setMem m v).epoch = s.epoch := by cases m <;> rfl
@[simp] theorem setMem_draws (m : Buffer) (v : Memory) : (s.setMem m v).draws = s.draws := by cases m <;> rfl

@[simp] theorem mem_setMem (m k : Buffer) (v : Memory) :
    (s.setMem m v).mem k = if m = k then v else s.mem k := by
  cases m <;> cases k <;> rfl

@[simp] theorem setMem_car (v : Memory) : s.setMem .car v = { s with car := v } := rfl
@[simp] theorem setMem_pay (v : Memory) : s.setMem .pay v = { s with pay := v } := rfl
@[simp] theorem setMem_out (v : Memory) : s.setMem .out v = { s with out := v } := rfl

/-! ### The three memories by name -/

@[simp] theorem mem_car : s.mem .car = s.car := rfl
@[simp] theorem mem_pay : s.mem .pay = s.pay := rfl
@[simp] theorem mem_out : s.mem .out = s.out := rfl

end Sys2Proof.Machine
end

