-- ==== Sys2Proof/Laws/Memory.lean ====
section
/-! SUPPORT. The laws of one memory: what a read after a write gives, and that every operation keeps the
canonical form and the depth. -/

namespace Sys2Proof.Machine

/-! ### Cells -/

theorem lookupCell_insertCell (i j : Nat) (v : Word) (l : List (Nat × Word)) :
    lookupCell j (insertCell i v l) = if i = j then some v else lookupCell j l := by
  induction l with
  | nil => rfl
  | cons c rest ih =>
    obtain ⟨k, w⟩ := c
    by_cases hlt : k < i
    · simp only [insertCell, hlt, if_true, lookupCell, ih]
      split_ifs <;> first | rfl | omega
    · by_cases heq : k = i
      · subst heq
        simp only [insertCell, lt_irrefl, if_false, if_true, lookupCell]
        split_ifs <;> rfl
      · simp only [insertCell, hlt, heq, if_false, lookupCell]

theorem lookupCell_numberFrom (i k : Nat) (ws : List Word) (l : List (Nat × Word)) :
    lookupCell i (numberFrom k ws ++ l)
      = if k ≤ i ∧ i < k + ws.length then ws[i - k]? else lookupCell i l := by
  induction ws generalizing k with
  | nil => simp [numberFrom]
  | cons w ws ih =>
    simp only [numberFrom, List.cons_append, lookupCell, ih, List.length_cons]
    by_cases h : k = i
    · subst h; simp
    · by_cases hk : k + 1 ≤ i
      · have : i - k = i - (k + 1) + 1 := by omega
        simp only [h, if_false, this, List.getElem?_cons_succ]
        split_ifs <;> first | rfl | omega
      · simp only [h, if_false]
        split_ifs <;> first | rfl | omega

theorem lookupCell_filter (i n : Nat) (h : n ≤ i) (l : List (Nat × Word)) :
    lookupCell i (l.filter fun c => decide (n ≤ c.1)) = lookupCell i l := by
  induction l with
  | nil => rfl
  | cons c rest ih =>
    obtain ⟨k, w⟩ := c
    by_cases hk : n ≤ k
    · simp [hk, lookupCell, ih]
    · have : k ≠ i := by omega
      simp [hk, lookupCell, ih, this]

theorem mem_numberFrom {c : Nat × Word} {k : Nat} {ws : List Word} (h : c ∈ numberFrom k ws) :
    k ≤ c.1 ∧ c.1 < k + ws.length := by
  induction ws generalizing k with
  | nil => simp [numberFrom] at h
  | cons w ws ih =>
    rcases List.mem_cons.1 h with rfl | h
    · simp
    · have := ih h
      simp only [List.length_cons]; omega

theorem numberFrom_pairwise (k : Nat) (ws : List Word) :
    ((numberFrom k ws).map Prod.fst).Pairwise (· < ·) := by
  induction ws generalizing k with
  | nil => simp [numberFrom]
  | cons w ws ih =>
    simp only [numberFrom, List.map_cons, List.pairwise_cons, List.mem_map]
    refine ⟨?_, ih _⟩
    rintro _ ⟨c, hc, rfl⟩
    have := mem_numberFrom hc
    omega

theorem mem_insertCell {c : Nat × Word} {i : Nat} {v : Word} {l : List (Nat × Word)}
    (h : c ∈ insertCell i v l) : c = (i, v) ∨ c ∈ l := by
  induction l with
  | nil => simpa [insertCell] using h
  | cons d rest ih =>
    simp only [insertCell] at h
    split_ifs at h
    · rcases List.mem_cons.1 h with rfl | h
      · simp
      · rcases ih h with h | h <;> simp [h]
    · rcases List.mem_cons.1 h with rfl | h <;> simp [*]
    · rcases List.mem_cons.1 h with rfl | h
      · simp
      · exact .inr h

theorem insertCell_pairwise (i : Nat) (v : Word) (l : List (Nat × Word))
    (h : (l.map Prod.fst).Pairwise (· < ·)) : ((insertCell i v l).map Prod.fst).Pairwise (· < ·) := by
  induction l with
  | nil => simp [insertCell]
  | cons d rest ih =>
    simp only [List.map_cons, List.pairwise_cons, List.mem_map] at h
    obtain ⟨hd, hr⟩ := h
    simp only [insertCell]
    split_ifs with h1 h2
    · simp only [List.map_cons, List.pairwise_cons, List.mem_map]
      refine ⟨?_, ih hr⟩
      rintro _ ⟨c, hc, rfl⟩
      rcases mem_insertCell hc with rfl | hc
      · exact h1
      · exact hd _ ⟨c, hc, rfl⟩
    · subst h2
      simpa [List.pairwise_cons] using ⟨fun a b hab => hd a ⟨_, hab, rfl⟩, hr⟩
    · have hlt : i < d.1 := by omega
      simp only [List.map_cons, List.pairwise_cons, List.mem_cons, List.mem_map]
      refine ⟨?_, ⟨hd, hr⟩⟩
      rintro _ (rfl | ⟨c, hc, rfl⟩)
      · exact hlt
      · exact hlt.trans (hd _ ⟨c, hc, rfl⟩)

/-! ### Memories -/

@[simp] theorem unwritten_get? (i : Nat) : Memory.unwritten.get? i = none := rfl

theorem get?_set (m : Memory) (i j : Nat) (v : Word) :
    (m.set i v).get? j = if i = j then some v else m.get? j :=
  lookupCell_insertCell i j v m.cells

theorem get?_setPrefix (m : Memory) (ws : List Word) (i : Nat) :
    (m.setPrefix ws).get? i = if i < ws.length then ws[i]? else m.get? i := by
  simp only [Memory.get?, Memory.setPrefix, lookupCell_numberFrom, Nat.zero_le, true_and, zero_add,
    Nat.sub_zero]
  split_ifs with h
  · rfl
  · exact lookupCell_filter i _ (by omega) _

theorem setPrefix_nil (m : Memory) : m.setPrefix [] = m := by
  cases m; simp [Memory.setPrefix, numberFrom]

theorem setPrefix_setPrefix (m : Memory) (ws : List Word) :
    (m.setPrefix ws).setPrefix ws = m.setPrefix ws := by
  simp only [Memory.setPrefix, Memory.mk.injEq, List.filter_append, List.filter_filter, Bool.and_self,
    List.append_cancel_left_eq]
  suffices h : (numberFrom 0 ws).filter (fun c => decide (ws.length ≤ c.1)) = [] by simp [h]
  rw [List.filter_eq_nil_iff]
  intro c hc
  have := mem_numberFrom hc
  simp; omega

theorem wf_unwritten : Memory.unwritten.wf := by simp [Memory.wf, Memory.unwritten]

theorem wf_set (m : Memory) (i : Nat) (v : Word) (h : m.wf) : (m.set i v).wf :=
  insertCell_pairwise i v m.cells h

theorem wf_setPrefix (m : Memory) (ws : List Word) (h : m.wf) : (m.setPrefix ws).wf := by
  simp only [Memory.wf, Memory.setPrefix, List.map_append, List.pairwise_append]
  refine ⟨numberFrom_pairwise 0 ws, ?_, ?_⟩
  · exact List.Pairwise.sublist (List.filter_sublist.map _) h
  · intro a ha b hb
    obtain ⟨c, hc, rfl⟩ := List.mem_map.1 ha
    obtain ⟨d, hd, rfl⟩ := List.mem_map.1 hb
    have h1 := mem_numberFrom hc
    have h2 := (List.mem_filter.1 hd).2
    simp only [decide_eq_true_eq] at h2
    omega

theorem fits_unwritten (d : Option Nat) : Memory.unwritten.fits d := by
  intro c hc; simp [Memory.unwritten] at hc

theorem fits_set (m : Memory) (i : Nat) (v : Word) (d : Option Nat) (h : m.fits d)
    (hi : inDepth i d = true) : (m.set i v).fits d := by
  intro c hc
  rcases mem_insertCell hc with rfl | hc
  · exact hi
  · exact h c hc

/-- A result extent that does not exceed the depth keeps the memory within it. -/
theorem fits_setPrefix (m : Memory) (ws : List Word) (d : Option Nat) (h : m.fits d)
    (hn : exceeds ws.length d = false) : (m.setPrefix ws).fits d := by
  intro c hc
  rcases List.mem_append.1 hc with hc | hc
  · have := mem_numberFrom hc
    cases d with
    | none => rfl
    | some d => simp [exceeds, inDepth] at *; omega
  · exact h c (List.mem_filter.1 hc).1

/-! ### The words of a state -/

theorem word_congr {s t : State} {m : Buffer} (hm : s.mem m = t.mem m) (he : s.epoch = t.epoch) (i : Nat) :
    s.word m i = t.word m i := by
  simp only [State.word, hm, he]

@[simp] theorem word_setAgenda (s : State) (a : List Turn) (m : Buffer) (i : Nat) :
    (s.setAgenda a).word m i = s.word m i := by cases m <;> rfl

@[simp] theorem word_respond (s : State) (r : Option Word) (m : Buffer) (i : Nat) :
    (s.respond r).word m i = s.word m i := by cases m <;> rfl

@[simp] theorem word_start (s : State) (v : Word) (m : Buffer) (i : Nat) :
    (start v s).word m i = s.word m i := by cases m <;> rfl

@[simp] theorem word_takeException (s : State) (cap rng cmd : Bool) (m : Buffer) (i : Nat) :
    (takeException cap rng cmd s).word m i = s.word m i := by cases m <;> rfl

@[simp] theorem word_commit_car (s : State) (r : Result) (i : Nat) :
    (commit r s).word .car i = s.word .car i := rfl

@[simp] theorem word_commit_pay (s : State) (r : Result) (i : Nat) :
    (commit r s).word .pay i = s.word .pay i := rfl

/-- A word of the result extent. -/
theorem word_commit_out_lt (s : State) (r : Result) (i : Nat) (h : i < r.words.length) :
    (commit r s).word .out i = r.words[i] := by
  simp [State.word, State.mem, get?_setPrefix, h]

/-- A word beyond the result extent. -/
theorem word_commit_out_ge (s : State) (r : Result) (i : Nat) (h : r.words.length ≤ i) :
    (commit r s).word .out i = s.word .out i := by
  simp [State.word, State.mem, get?_setPrefix, Nat.not_lt.2 h]

theorem word_setMem_set (s : State) (m k : Buffer) (i j : Nat) (v : Word) :
    (s.setMem m ((s.mem m).set i v)).word k j = if m = k ∧ i = j then v else s.word k j := by
  simp only [State.word, mem_setMem, setMem_epoch]
  by_cases hm : m = k
  · subst hm
    by_cases hi : i = j
    · simp [get?_set, hi]
    · simp [get?_set, hi]
  · simp [hm]

theorem word_moveOutToCar_lt (s : State) (n i : Nat) (h : i < n) :
    (moveOutToCar n s).word .car i = s.word .out i := by
  simp [moveOutToCar, State.word, State.mem, get?_setPrefix, State.words, h]

@[simp] theorem length_words (s : State) (m : Buffer) (n : Nat) : (s.words m n).length = n := by
  simp [State.words]

theorem getElem?_words (s : State) (m : Buffer) (n i : Nat) (h : i < n) :
    (s.words m n)[i]? = some (s.word m i) := by
  simp [State.words, h]

theorem getD_words (s : State) (m : Buffer) (n i : Nat) (d : Word) (h : i < n) :
    (s.words m n).getD i d = s.word m i := by
  simp [State.words, h]

theorem words_congr {s t : State} {m : Buffer} {n : Nat} (h : ∀ k < n, s.word m k = t.word m k) :
    s.words m n = t.words m n :=
  List.map_congr_left fun k hk => h k (by simpa using hk)

end Sys2Proof.Machine
end

