-- ==== Sys2Proof/Laws/Access.lean ====
section
/-! SUPPORT. What each host access does, one lemma for each case of 45_control.md R87 and R88. -/

namespace Sys2Proof.Machine

/-! ### Depths -/

theorem below_iff (i : Nat) (d : Option Nat) : Below i d ↔ inDepth i d = true := by
  cases d <;> simp [Below, inDepth]

theorem beyond_iff (n : Nat) (d : Option Nat) : Beyond n d ↔ exceeds n d = true := by
  cases d <;> simp [Beyond, exceeds]

/-- An index below a count that does not exceed the depth is below the depth. -/
theorem inDepth_of_lt {i n : Nat} {d : Option Nat} (hi : i < n) (hn : exceeds n d = false) :
    inDepth i d = true := by
  cases d with
  | none => rfl
  | some d => simp only [exceeds, decide_eq_false_iff_not, inDepth, decide_eq_true_eq] at *; omega

/-! ### Registers -/

theorem writeReg_idle {s : State} (h : s.run = .idle) (n : Fin 32) (v : Word) :
    writeReg n v s = writeRegIdle n v s := by
  simp only [writeReg, h]

theorem writeReg_ignored {s : State} (h : s.run ≠ .idle) (n : Fin 32) (v : Word) : writeReg n v s = s := by
  unfold writeReg
  split <;> simp_all

@[simp] theorem regAt_zero : regAt 0 = some .cmd := rfl

theorem writeRegIdle_cmd (v : Word) (s : State) : writeRegIdle 0 v s = start v s := rfl

/-- Writing any register but CMD in IDLE at most replaces the descriptor. -/
theorem writeRegIdle_of_ne {n : Fin 32} (h : regAt n ≠ some .cmd) (v : Word) (s : State) :
    writeRegIdle n v s = match regAt n with
      | some r => s.setDesc (s.desc.set v r)
      | none => s := by
  unfold writeRegIdle
  split <;> simp_all

/-- Only the RW registers change the descriptor. -/
theorem set_of_not_descriptor {n : Fin 32} {r : Reg} (hr : regAt n = some r) (h : ¬ DescriptorNumber n.val)
    (d : Descriptor) (v : Word) : d.set v r = d := by
  have key : ∀ n : Fin 32, ¬ DescriptorNumber n.val → ∀ r ∈ regAt n,
      r ∈ [Reg.cmd, .status, .outW, .outH, .outLen, .outChannels, .outSwidth, .outFrate, .outFrames, .outComp] := by
    unfold DescriptorNumber; decide
  have hm := key n h r hr
  fin_cases hm <;> rfl

@[simp] theorem setDesc_self (s : State) : s.setDesc s.desc = s := rfl

/-- A write of a register that is neither CMD nor RW is ignored. -/
theorem writeRegIdle_ignored {n : Fin 32} (h0 : n ≠ 0) (h : ¬ DescriptorNumber n.val) (v : Word) (s : State) :
    writeRegIdle n v s = s := by
  have hc : ∀ n : Fin 32, n ≠ 0 → regAt n ≠ some .cmd := by decide
  rw [writeRegIdle_of_ne (hc n h0)]
  split
  · rename_i r hr
    rw [set_of_not_descriptor hr h, setDesc_self]
  · rfl

/-- The register numbered `n`, when `n` is RW. -/
theorem regAt_descriptor {n : Fin 32} (h : DescriptorNumber n.val) : ∃ r, regAt n = some r ∧ r ≠ .cmd := by
  have key : ∀ n : Fin 32, DescriptorNumber n.val → ∃ r ∈ regAt n, r ≠ .cmd := by
    unfold DescriptorNumber
    intro n hn
    have : regAt n ≠ none ∧ regAt n ≠ some .cmd := by revert n; decide
    cases hr : regAt n with
    | none => exact absurd hr this.1
    | some r => exact ⟨r, rfl, fun e => this.2 (by rw [hr, e])⟩
  obtain ⟨r, hr, hne⟩ := key n h
  exact ⟨r, hr, hne⟩

/-! ### Memories -/

theorem readMem_beyond {s : State} {m : Buffer} {i : Nat} (h : inDepth i (depthOf s.cfg m) = false) :
    readMem m i s = s.respond (some 0#32) := by
  simp only [readMem, h, Bool.false_eq_true, if_false]

theorem readMem_busy {s : State} {m : Buffer} {i : Nat} (hb : s.run = .busy)
    (h : inDepth i (depthOf s.cfg m) = true) : readMem m i s = drawReply s := by
  simp only [readMem, h, if_true, hb]

theorem readMem_word {s : State} {m : Buffer} {i : Nat} (hb : s.run ≠ .busy)
    (h : inDepth i (depthOf s.cfg m) = true) : readMem m i s = s.respond (some (s.word m i)) := by
  simp only [readMem, h, if_true]
  split <;> simp_all

theorem writeMem_stores {s : State} {m : Buffer} {i : Nat} (v : Word) (hr : s.run = .idle)
    (h : inDepth i (depthOf s.cfg m) = true) : writeMem m i v s = s.setMem m ((s.mem m).set i v) := by
  simp only [writeMem, hr, h, if_true]

theorem writeMem_ignored {s : State} {m : Buffer} {i : Nat} (v : Word)
    (h : s.run ≠ .idle ∨ inDepth i (depthOf s.cfg m) = false) : writeMem m i v s = s := by
  unfold writeMem
  split
  · rename_i hr
    rcases h with h | h
    · exact absurd hr h
    · simp only [h, Bool.false_eq_true, if_false]
  · rfl
  · rfl

/-- What a read of a port leaves: an answer, and at most one more draw. -/
theorem readMem_respond (m : Buffer) (i : Nat) (s : State) :
    ∃ r d, readMem m i s = { s with reply := r, draws := d } := by
  by_cases h : inDepth i (depthOf s.cfg m) = true
  · by_cases hb : s.run = .busy
    · exact ⟨_, _, readMem_busy hb h⟩
    · exact ⟨_, _, readMem_word hb h⟩
  · exact ⟨_, _, readMem_beyond (by simpa using h)⟩

/-- While the engine is not IDLE no access but reset touches a register or a memory. -/
theorem access_not_idle {s : State} {op : PortOp} (h : s.run ≠ .idle) (hn : op ≠ .reset) :
    ∃ r d, access op s = { s with reply := r, draws := d } := by
  cases op with
  | readReg n => exact ⟨_, _, rfl⟩
  | writeReg n v => exact ⟨none, s.draws, congrArg (State.respond none) (writeReg_ignored h n v)⟩
  | readMem m i => exact readMem_respond m i s
  | writeMem m i v => exact ⟨none, s.draws, congrArg (State.respond none) (writeMem_ignored v (.inl h))⟩
  | reset => exact absurd rfl hn

end Sys2Proof.Machine
end

