-- ==== Sys2Proof/Laws/Bits.lean ====
section
/-! SUPPORT. One spec lemma for each bit-pattern and bitstream function: its length and its elements. -/

namespace Sys2Proof.Machine

/-! ### Patterns -/

theorem getLsbD_orFold (n : Nat) (f : Nat → Bool) (k i : Nat) (hk : k ≤ n) :
    ((List.range k).foldl (fun v b => v ||| ((BitVec.ofBool (f b)).setWidth n <<< b)) 0#n).getLsbD i
      = (decide (i < k) && f i) := by
  induction k with
  | zero => simp
  | succ k ih =>
    rw [List.range_succ, List.foldl_append, List.foldl_cons, List.foldl_nil, BitVec.getLsbD_or,
      ih (by omega), BitVec.getLsbD_shiftLeft, BitVec.getLsbD_setWidth, BitVec.getLsbD_ofBool]
    rcases Nat.lt_trichotomy i k with h | h | h
    · simp [h, Nat.lt_succ_of_lt h]
    · subst h; simp [show i < n by omega]; omega
    · have h1 : ¬ i < k := by omega
      have h2 : ¬ i < k + 1 := by omega
      have h3 : i - k ≠ 0 := by omega
      simp [h1, h2, h3]

/-- Bit `i` of `orBits n f` is `f i`. -/
theorem getLsbD_orBits (n : Nat) (f : Nat → Bool) (i : Nat) :
    (orBits n f).getLsbD i = (decide (i < n) && f i) :=
  getLsbD_orFold n f n i le_rfl

/-- LSB substitution replaces bit `i` and keeps every other bit (40_bitplane_primitive.md R53). -/
theorem getLsbD_setlsb (w : Word) (i : Nat) (b : Bool) (j : Nat) (hi : i < 32) :
    (setlsb w i b).getLsbD j = if j = i then b else w.getLsbD j := by
  simp only [setlsb, BitVec.getLsbD_or, BitVec.getLsbD_and, BitVec.getLsbD_not, BitVec.getLsbD_shiftLeft,
    BitVec.getLsbD_setWidth, BitVec.getLsbD_ofBool, BitVec.getLsbD_one]
  by_cases hj : j < 32
  · by_cases h : j = i
    · subst h; simp [hj]
    · rcases Nat.lt_or_ge j i with h' | h'
      · simp [hj, h, h']
      · have : j - i ≠ 0 := by omega
        simp [hj, h, Nat.not_lt.2 h', this]
  · have h1 : j ≠ i := by omega
    simp [hj, h1, BitVec.getLsbD_of_ge w j (by omega)]

theorem getLsbD_putlsb (w : Word) (i : Nat) (b : Option Bool) (j : Nat) (hi : i < 32) :
    (putlsb w i b).getLsbD j = if j = i then b.getD (w.getLsbD j) else w.getLsbD j := by
  cases b with
  | none => simp [putlsb]
  | some b => simpa [putlsb] using getLsbD_setlsb w i b j hi

theorem getLsbD_chan (w : Word) (c i : Nat) : (chan w c).getLsbD i = (decide (i < 8) && w.getLsbD (8 * c + i)) := by
  simp [chan, BitVec.getLsbD_extractLsb']

theorem getLsbD_samp (w : Word) (i : Nat) : (samp w).getLsbD i = (decide (i < 16) && w.getLsbD i) := by
  simp [samp, BitVec.getLsbD_extractLsb']

theorem getLsbD_chr (w : Word) (i : Nat) : (chr w).getLsbD i = (decide (i < 8) && w.getLsbD i) := by
  simp [chr, BitVec.getLsbD_extractLsb']

/-! ### Bitstreams -/

@[simp] theorem length_textbits (t : List Byte) : (textbits t).length = 8 * t.length := by simp [textbits]

theorem getElem?_textbits (t : List Byte) (k : Nat) (h : k < 8 * t.length) :
    (textbits t)[k]? = some ((t.getD (k / 8) 0#8).getLsbD (7 - k % 8)) := by
  simp [textbits, h]

@[simp] theorem length_bytesof (s : List Bool) : (bytesof s).length = s.length / 8 := by simp [bytesof]

theorem getElem?_bytesof (s : List Bool) (j : Nat) (h : j < s.length / 8) :
    (bytesof s)[j]? = some (orBits 8 fun i => s.getD (8 * j + (7 - i)) false) := by
  simp [bytesof, h]

@[simp] theorem length_samplebits (p : List Half) : (samplebits p).length = 16 * p.length := by
  simp [samplebits]

theorem getElem?_samplebits (p : List Half) (k : Nat) (h : k < 16 * p.length) :
    (samplebits p)[k]? = some ((p.getD (k / 16) 0#16).getLsbD (k % 16)) := by
  simp [samplebits, h]

@[simp] theorem length_samplesof (s : List Bool) (n : Nat) : (samplesof s n).length = n := by
  simp [samplesof]

theorem getElem?_samplesof (s : List Bool) (n i : Nat) (h : i < n) :
    (samplesof s n)[i]? = some (orBits 16 fun b => s.getD (16 * i + b) false) := by
  simp [samplesof, h]

@[simp] theorem length_pixelbits (p : List Word) : (pixelbits p).length = 3 * p.length := by
  simp [pixelbits]

theorem getElem?_pixelbits (p : List Word) (k : Nat) (h : k < 3 * p.length) :
    (pixelbits p)[k]? = some (getlsb (p.getD (k / 3) 0#32) (8 * (k % 3))) := by
  simp [pixelbits, h]

@[simp] theorem length_samplelsbs (c : List Word) : (samplelsbs c).length = c.length := by
  simp [samplelsbs]

theorem getElem?_samplelsbs (ws : List Word) (k : Nat) :
    (samplelsbs ws)[k]? = (ws[k]?).map fun w => getlsb w 0 := by
  simp [samplelsbs]

@[simp] theorem length_embedPixels (c : List Word) (s : List Bool) : (embedPixels c s).length = c.length := by
  simp [embedPixels]

/-- Bit `b` of a pixel after an embed: the stream's bit at the three payload positions the stream reaches, else
the cover's (40_bitplane_primitive.md R62). -/
theorem getLsbD_embedPixels (c : List Word) (s : List Bool) (p b : Nat) (hp : p < c.length) :
    ((embedPixels c s).getD p 0#32).getLsbD b
      = if b % 8 = 0 ∧ b / 8 < 3 then (s[3 * p + b / 8]?).getD ((c.getD p 0#32).getLsbD b)
        else (c.getD p 0#32).getLsbD b := by
  have h : (embedPixels c s).getD p 0#32
      = putlsb (putlsb (putlsb (c.getD p 0#32) 0 s[3 * p]?) 8 s[3 * p + 1]?) 16 s[3 * p + 2]? := by
    simp [embedPixels, hp]
  rw [h, getLsbD_putlsb _ _ _ _ (by omega), getLsbD_putlsb _ _ _ _ (by omega),
    getLsbD_putlsb _ _ _ _ (by omega)]
  by_cases h0 : b = 0
  · subst h0; simp
  by_cases h8 : b = 8
  · subst h8; simp
  by_cases h16 : b = 16
  · subst h16; simp
  · rw [if_neg h16, if_neg h8, if_neg h0, if_neg (by omega)]

@[simp] theorem length_embedSamples (c : List Word) (s : List Bool) : (embedSamples c s).length = c.length := by
  simp [embedSamples]

/-- Bit `b` of a sample word after an embed (40_bitplane_primitive.md R62). -/
theorem getLsbD_embedSamples (c : List Word) (s : List Bool) (k b : Nat) (hk : k < c.length) :
    ((embedSamples c s).getD k 0#32).getLsbD b
      = if b = 0 then (s[k]?).getD ((c.getD k 0#32).getLsbD b) else (c.getD k 0#32).getLsbD b := by
  have h : (embedSamples c s).getD k 0#32 = putlsb (c.getD k 0#32) 0 s[k]? := by
    simp [embedSamples, hk]
  rw [h, getLsbD_putlsb _ _ _ _ (by omega)]

@[simp] theorem length_raster (w h : Nat) (f : Nat → Nat → Word) : (raster w h f).length = w * h := by
  simp [raster]

/-- The unit at column `x`, row `y` (20_memory.md R33). -/
theorem getElem?_raster (w h : Nat) (f : Nat → Nat → Word) (x y : Nat) (hx : x < w) (hy : y < h) :
    (raster w h f)[y * w + x]? = some (f x y) := by
  have hi : y * w + x < w * h := by
    have : (y + 1) * w ≤ h * w := Nat.mul_le_mul_right w hy
    have e : (y + 1) * w = y * w + w := by ring
    have c : h * w = w * h := Nat.mul_comm h w
    omega
  have hm : (y * w + x) % w = x := by
    rw [Nat.add_comm, Nat.add_mul_mod_self_right, Nat.mod_eq_of_lt hx]
  have hd : (y * w + x) / w = y := by
    rw [Nat.add_comm, Nat.add_mul_div_right _ _ (by omega), Nat.div_eq_of_lt hx, Nat.zero_add]
  simp [raster, hi, hm, hd]

theorem raster_congr {w h : Nat} {f g : Nat → Nat → Word} (hfg : ∀ x y, x < w → y < h → f x y = g x y) :
    raster w h f = raster w h g := by
  apply List.map_congr_left
  intro i hi
  have hi : i < w * h := by simpa using hi
  have hw : 0 < w := Nat.pos_of_mul_pos_right (by omega : 0 < w * h)
  exact hfg _ _ (Nat.mod_lt _ hw) (Nat.div_lt_of_lt_mul hi)

theorem samplesof_congr {a b : List Bool} {n : Nat} (h : ∀ k < 16 * n, a[k]? = b[k]?) :
    samplesof a n = samplesof b n := by
  apply List.map_congr_left
  intro i hi
  have hi : i < n := by simpa using hi
  apply BitVec.eq_of_getLsbD_eq
  intro j hj
  rw [getLsbD_orBits, getLsbD_orBits]
  simp only [hj, decide_true, Bool.true_and, List.getD, h (16 * i + j) (by omega)]

/-! ### Terminators -/

/-- What a search over indices finds: the smallest index that satisfies the test. -/
theorem find?_range_eq_some {n j : Nat} {p : Nat → Bool} :
    (List.range n).find? p = some j ↔ j < n ∧ p j = true ∧ ∀ k < j, p k = false := by
  simp only [List.find?_range_eq_some, List.mem_range, Bool.not_eq_true']
  tauto

theorem find?_range_eq_none {n : Nat} {p : Nat → Bool} :
    (List.range n).find? p = none ↔ ∀ k < n, p k = false := by
  simp [List.find?_eq_none]

/-- Bytes `j - 2`, `j - 1`, `j` are the marker. -/
def MarkerAt (b : List Byte) (j : Nat) : Prop :=
  2 ≤ j ∧ b[j - 2]? = some hash ∧ b[j - 1]? = some hash ∧ b[j]? = some hash

theorem markerEnd_eq_some {b : List Byte} {j : Nat} :
    markerEnd b = some j ↔ j < b.length ∧ MarkerAt b j ∧ ∀ k < j, ¬ MarkerAt b k := by
  simp only [markerEnd, find?_range_eq_some, MarkerAt, ← Bool.not_eq_true, Bool.and_eq_true, decide_eq_true_eq,
    beq_iff_eq, and_assoc]

theorem markerEnd_eq_none {b : List Byte} :
    markerEnd b = none ↔ ∀ k < b.length, ¬ MarkerAt b k := by
  simp only [markerEnd, find?_range_eq_none, MarkerAt, ← Bool.not_eq_true, Bool.and_eq_true, decide_eq_true_eq,
    beq_iff_eq, and_assoc]

theorem zeroByte_eq_some {b : List Byte} {j : Nat} :
    zeroByte b = some j ↔ j < b.length ∧ b[j]? = some 0#8 ∧ ∀ k < j, b[k]? ≠ some 0#8 := by
  simp only [zeroByte, find?_range_eq_some, ← Bool.not_eq_true, beq_iff_eq, ne_eq]

theorem zeroByte_eq_none {b : List Byte} :
    zeroByte b = none ↔ ∀ k < b.length, b[k]? ≠ some 0#8 := by
  simp only [zeroByte, find?_range_eq_none, ← Bool.not_eq_true, beq_iff_eq, ne_eq]

theorem length_charWords (b : List Byte) (n : Nat) : (charWords b n).length = min n b.length := by
  simp [charWords]

theorem getElem?_charWords (b : List Byte) (n i : Nat) (h : i < n) :
    (charWords b n)[i]? = (b[i]?).map fun c => c.setWidth 32 := by
  simp [charWords, h]

/-! ### STATUS -/

/-- Bit `i` of the STATUS word (10_state.md R15). -/
theorem getLsbD_statusWord (run : RunState) (f : Status) (i : Nat) :
    (statusWord run f).getLsbD i = match i with
      | 0 => run == .busy
      | 1 => run == .halted
      | 2 => f.done
      | 3 => f.term
      | 8 => f.errCap
      | 9 => f.errRange
      | 10 => f.errCmd
      | _ => false := by
  rw [statusWord, getLsbD_orBits]
  by_cases h : i < 32
  · exact (congrArg (· && _) (decide_eq_true h)).trans (Bool.true_and _)
  · have : 32 ≤ i := by omega
    obtain ⟨k, rfl⟩ := Nat.exists_eq_add_of_le this
    rw [Nat.add_comm]
    simp

end Sys2Proof.Machine
end

