-- ==== Sys2Proof/Laws/Exec.lean ====
section
/-! SUPPORT. What a command, a turn and a step can do, said once: the later proofs split on these lemmas and
unfold no meaning. -/

namespace Sys2Proof.Machine

/-! ### The template -/

/-- A codec command whose conditions fail commits its result. -/
theorem codec_admits {i : Instr} {r : State → Result} {s : State} (h : Admits i s) :
    codec i r s = commit (r s) s := by
  simp [codec, h.1, h.2]

/-- A codec command one of whose conditions holds takes the exception, both bits as raised. -/
theorem codec_raises {i : Instr} {r : State → Result} {s : State}
    (h : capacityError i s = true ∨ rangeError i s = true) :
    codec i r s = takeException (capacityError i s) (rangeError i s) false s := by
  rcases h with h | h <;> simp [codec, h]

/-- The result of a command that admits its descriptor; QUIT has none. -/
def resultOf : Instr → State → Result
  | .embII => embIIResult
  | .revII => revIIResult
  | .embTI => embTIResult
  | .revTI => revTIResult
  | .embAA => embAAResult
  | .revAA => revAAResult
  | .embTA => embTAResult
  | .revTA => revTAResult
  | .quit => fun s => ⟨[], s.res, false⟩

/-- Everything a command can do: refuse (REV_TI on a text too long for OUT_LEN), take an exception, commit its
result, or halt. -/
theorem exec_cases (i : Instr) (s : State) :
    (i = .revTI ∧ rangeError .revTI s = false ∧ 2 ^ 32 ≤ revTILength s
      ∧ exec i s = .refused .textLengthOverflow) ∨
    (i ≠ .quit ∧ (capacityError i s = true ∨ rangeError i s = true)
      ∧ exec i s = .next (takeException (capacityError i s) (rangeError i s) false s)) ∨
    (i ≠ .quit ∧ Admits i s ∧ (i = .revTI → revTILength s < 2 ^ 32)
      ∧ exec i s = .next (commit (resultOf i s) s)) ∨
    (i = .quit ∧ exec i s = .next (halt s)) := by
  by_cases hq : i = .quit
  · subst hq; exact .inr (.inr (.inr ⟨rfl, rfl⟩))
  by_cases hr : capacityError i s = true ∨ rangeError i s = true
  · refine .inr (.inl ⟨hq, hr, ?_⟩)
    cases i <;> first
      | exact absurd rfl hq
      | exact congrArg _ (codec_raises hr)
      | (have h : rangeError .revTI s = true := by simpa [capacityError] using hr
         simp only [exec, execRevTI, h, Bool.true_eq_false, false_and, if_false]
         exact congrArg _ ((codec_raises hr).trans (by rw [h])))
  · have ha : Admits i s := by simpa [Admits, not_or] using hr
    by_cases hl : i = .revTI ∧ 2 ^ 32 ≤ revTILength s
    · obtain ⟨rfl, hl⟩ := hl
      refine .inl ⟨rfl, ha.2, hl, ?_⟩
      simp only [exec, execRevTI, ha.2, hl, and_self, if_true]
    · refine .inr (.inr (.inl ⟨hq, ha, fun h => by subst h; simpa using hl, ?_⟩))
      cases i <;> first
        | exact absurd rfl hq
        | exact congrArg _ (codec_admits ha)
        | (have h : ¬ (rangeError .revTI s = false ∧ 2 ^ 32 ≤ revTILength s) := fun h => hl ⟨rfl, h.2⟩
           simp only [exec, execRevTI, h, if_false]
           exact congrArg _ (codec_admits ha))

/-- A command that answers a next state took an exception, committed its result, or halted. -/
theorem exec_next_cases {i : Instr} {s t : State} (h : exec i s = .next t) :
    (i ≠ .quit ∧ (capacityError i s = true ∨ rangeError i s = true)
      ∧ t = takeException (capacityError i s) (rangeError i s) false s) ∨
    (i ≠ .quit ∧ Admits i s ∧ (i = .revTI → revTILength s < 2 ^ 32) ∧ t = commit (resultOf i s) s) ∨
    (i = .quit ∧ t = halt s) := by
  rcases exec_cases i s with ⟨_, _, _, h'⟩ | ⟨a, b, h'⟩ | ⟨a, b, c, h'⟩ | ⟨a, h'⟩ <;>
    rw [h'] at h <;> cases h
  · exact .inl ⟨a, b, rfl⟩
  · exact .inr (.inl ⟨a, b, c, rfl⟩)
  · exact .inr (.inr ⟨a, rfl⟩)

/-- A command that admits its descriptor (and whose recovered text fits OUT_LEN) commits its result. -/
theorem exec_admits {i : Instr} {s : State} (hq : i ≠ .quit) (ha : Admits i s)
    (hl : i = .revTI → revTILength s < 2 ^ 32) : exec i s = .next (commit (resultOf i s) s) := by
  rcases exec_cases i s with ⟨rfl, _, h, _⟩ | ⟨_, h, _⟩ | ⟨_, _, _, h⟩ | ⟨h, _⟩
  · exact absurd (hl rfl) (by omega)
  · rcases h with h | h
    · simp [ha.1] at h
    · simp [ha.2] at h
  · exact h
  · exact absurd h hq

/-! ### The result extents -/

theorem length_markerEnd {b : List Byte} {j : Nat} (h : markerEnd b = some j) : j < b.length :=
  (markerEnd_eq_some.1 h).1

theorem length_zeroByte {b : List Byte} {j : Nat} (h : zeroByte b = some j) : j < b.length :=
  (zeroByte_eq_some.1 h).1

theorem length_revTIBytes (s : State) : (revTIBytes s).length = 3 * carPixels s / 8 := by
  simp [revTIBytes, coverPixels]

theorem length_revTABytes (s : State) : (revTABytes s).length = s.desc.carLen.toNat / 8 := by
  simp [revTABytes, coverSamples]

theorem revTILength_le (s : State) : revTILength s ≤ 3 * carPixels s / 8 := by
  unfold revTILength
  split
  · rename_i j h
    have := length_markerEnd h
    rw [length_revTIBytes] at this
    omega
  · omega

theorem revTALength_le (s : State) : revTALength s ≤ s.desc.carLen.toNat / 8 := by
  unfold revTALength
  split
  · rename_i j h
    have := length_zeroByte h
    rw [length_revTABytes] at this
    omega
  · omega

/-- The length of each command's result extent (20_memory.md R38). -/
theorem length_resultOf (i : Instr) (s : State) :
    (resultOf i s).words.length = match i with
      | .embII | .embTI => carPixels s
      | .revII => payPixels s
      | .revTI => revTILength s
      | .embAA | .embTA => s.desc.carLen.toNat
      | .revAA => s.desc.payLen.toNat
      | .revTA => revTALength s
      | .quit => 0 := by
  cases i
  case embII => simp [resultOf, embIIResult, carPixels]
  case revII => simp [resultOf, revIIResult, payPixels]
  case embTI => simp [resultOf, embTIResult, coverPixels]
  case revTI =>
    have := revTILength_le s
    simp only [resultOf, revTIResult, length_charWords, length_revTIBytes]
    omega
  case embAA => simp [resultOf, embAAResult, coverSamples]
  case revAA => simp [resultOf, revAAResult]
  case embTA => simp [resultOf, embTAResult, coverSamples]
  case revTA =>
    have := revTALength_le s
    simp only [resultOf, revTAResult, length_charWords, length_revTABytes]
    omega
  case quit => rfl

theorem exceeds_mono {m n : Nat} {d : Option Nat} (h : m ≤ n) (hn : exceeds n d = false) :
    exceeds m d = false := by
  cases d with
  | none => rfl
  | some d => simp only [exceeds, decide_eq_false_iff_not] at *; omega

/-- A command that admits its descriptor stays within OUT (60_exceptions.md R91). -/
theorem resultOf_fits {i : Instr} {s : State} (hq : i ≠ .quit) (ha : Admits i s) :
    exceeds (resultOf i s).words.length s.cfg.outDepth = false := by
  rw [length_resultOf]
  obtain ⟨_, hr⟩ := ha
  cases i <;> simp only [rangeError, Bool.or_eq_false_iff] at hr
  case quit => exact absurd rfl hq
  case revTI => exact exceeds_mono (revTILength_le s) hr.2
  case revTA => exact exceeds_mono (revTALength_le s) hr.2
  all_goals exact hr.2

/-! ### The engine's turn and the step -/

/-- A BUSY engine completes: a word that names a command runs it, any other takes InvalidCommand. -/
theorem complete_cases (s : State) :
    (∃ i, decode s.cmd = .ok i ∧ complete s = exec i s) ∨
    (∃ e, decode s.cmd = .error e ∧ complete s = .next (takeException false false true s)) := by
  unfold complete
  split
  · rename_i i h; exact .inl ⟨i, h, rfl⟩
  · rename_i v h; exact .inr ⟨_, h, rfl⟩

/-- The engine moves next, and `rest` is what is left of the agenda. -/
theorem step_engine {s : State} {rest : List Turn} (h : EngineMoves s rest) :
    step s = engineTurn (s.setAgenda rest) := by
  rcases h with ⟨h, rfl⟩ | h
  · have : s = s.setAgenda [] := by cases s; simp_all [State.setAgenda]
    rw [← this]
    simp [step, takeTurn, h]
  · simp [step, takeTurn, h]

theorem step_port {s : State} {op : PortOp} {rest : List Turn} (h : s.agenda = .port op :: rest) :
    step s = .next (access op (s.setAgenda rest)) := by
  simp [step, takeTurn, h]

/-- Either the host or the engine moves next. -/
theorem moves_cases (s : State) :
    (∃ rest, EngineMoves s rest) ∨ ∃ op rest, s.agenda = .port op :: rest := by
  cases h : s.agenda with
  | nil => exact .inl ⟨[], .inl ⟨h, rfl⟩⟩
  | cons t rest =>
    cases t with
    | engine => exact .inl ⟨rest, .inr h⟩
    | port op => exact .inr ⟨op, rest, rfl⟩

/-- Everything a step can do when it answers a next state: a host transaction; an engine turn that finds nothing
to do; the completion of a command; the completion of an invalid command word. -/
theorem step_next_cases {s t : State} (h : step s = .next t) :
    (∃ op rest, s.agenda = .port op :: rest ∧ t = access op (s.setAgenda rest)) ∨
    (∃ rest, EngineMoves s rest ∧ s.run ≠ .busy ∧ t = s.setAgenda rest) ∨
    (∃ rest i, EngineMoves s rest ∧ s.run = .busy ∧ decode s.cmd = .ok i
      ∧ exec i (s.setAgenda rest) = .next t) ∨
    (∃ rest e, EngineMoves s rest ∧ s.run = .busy ∧ decode s.cmd = .error e
      ∧ t = takeException false false true (s.setAgenda rest)) := by
  rcases moves_cases s with ⟨rest, hm⟩ | ⟨op, rest, hm⟩
  · rw [step_engine hm] at h
    cases hr : s.run with
    | idle =>
      simp only [engineTurn, setAgenda_run, hr, Host.Outcome.next.injEq] at h
      exact .inr (.inl ⟨rest, hm, by simp, h.symm⟩)
    | halted =>
      simp only [engineTurn, setAgenda_run, hr, Host.Outcome.next.injEq] at h
      exact .inr (.inl ⟨rest, hm, by simp, h.symm⟩)
    | busy =>
      simp only [engineTurn, setAgenda_run, hr] at h
      rcases complete_cases (s.setAgenda rest) with ⟨i, hi, hc⟩ | ⟨e, he, hc⟩
      · exact .inr (.inr (.inl ⟨rest, i, hm, rfl, hi, by rw [← hc, h]⟩))
      · rw [hc, Host.Outcome.next.injEq] at h
        exact .inr (.inr (.inr ⟨rest, e, hm, rfl, he, h.symm⟩))
  · rw [step_port hm, Host.Outcome.next.injEq] at h
    exact .inl ⟨op, rest, hm, h.symm⟩

/-! ### What no command changes -/

theorem engineTurn_wait {s : State} (h : s.run ≠ .busy) : engineTurn s = .next s := by
  unfold engineTurn; split <;> simp_all

theorem exec_agenda {i : Instr} {s t : State} (h : exec i s = .next t) : t.agenda = s.agenda := by
  rcases exec_next_cases h with ⟨_, _, rfl⟩ | ⟨_, _, _, rfl⟩ | ⟨rfl, rfl⟩ <;> rfl

theorem exec_not_busy {i : Instr} {s t : State} (h : exec i s = .next t) : t.run ≠ .busy := by
  rcases exec_next_cases h with ⟨_, _, rfl⟩ | ⟨_, _, _, rfl⟩ | ⟨rfl, rfl⟩ <;> simp

end Sys2Proof.Machine
end

