-- ==== Sys2Proof/Laws/Codec.lean ====
section
/-! SUPPORT. One spec lemma for each codec command's result: what each word of its result extent holds. -/

namespace Sys2Proof.Machine

/-! ### OUT after a successful command -/

/-- A word of the result extent. -/
theorem word_result {i : Instr} {s : State} {k : Nat} {w : Word} (h : (resultOf i s).words[k]? = some w) :
    (commit (resultOf i s) s).word .out k = w := by
  obtain ⟨hl, he⟩ := List.getElem?_eq_some_iff.1 h
  rw [word_commit_out_lt _ _ _ hl, he]

/-- A word beyond the result extent. -/
theorem word_beyond_result {i : Instr} {s : State} {k n : Nat} (hn : (resultOf i s).words.length = n)
    (h : n ≤ k) : (commit (resultOf i s) s).word .out k = s.word .out k :=
  word_commit_out_ge _ _ _ (by omega)

/-! ### Operands -/

@[simp] theorem length_payText (s : State) : (payText s).length = s.desc.payLen.toNat := by simp [payText]

@[simp] theorem length_paySamples (s : State) : (paySamples s).length = s.desc.payLen.toNat := by
  simp [paySamples]

theorem length_coverPixels (s : State) : (coverPixels s).length = carPixels s := by simp [coverPixels]

theorem length_coverSamples (s : State) : (coverSamples s).length = s.desc.carLen.toNat := by
  simp [coverSamples]

theorem getElem?_payText {s : State} {k : Nat} (h : k < s.desc.payLen.toNat) :
    (payText s)[k]? = some (chr (s.word .pay k)) := by
  simp [payText, State.words, h]

theorem getElem?_paySamples {s : State} {k : Nat} (h : k < s.desc.payLen.toNat) :
    (paySamples s)[k]? = some (samp (s.word .pay k)) := by
  simp [paySamples, State.words, h]

theorem getD_of_getElem? {α : Type} {l : List α} {k : Nat} {a : α} (h : l[k]? = some a) (d : α) :
    l.getD k d = a := by
  simp [List.getD, h]

theorem getElem?_of_getD {α : Type} {l : List α} {k : Nat} (h : k < l.length) (d : α) :
    l[k]? = some (l.getD k d) := by
  simp [List.getD, h]

theorem getD_coverPixels {s : State} {k : Nat} (h : k < carPixels s) (d : Word) :
    (coverPixels s).getD k d = s.word .car k := getD_words _ _ _ _ _ h

theorem getD_coverSamples {s : State} {k : Nat} (h : k < s.desc.carLen.toNat) (d : Word) :
    (coverSamples s).getD k d = s.word .car k := getD_words _ _ _ _ _ h

/-- Stream bit `k` of a pixel carrier. -/
theorem getElem?_coverPixels_lsb {s : State} {k : Nat} (h : k < 3 * carPixels s) :
    (pixelbits (coverPixels s))[k]? = some ((s.word .car (k / 3)).getLsbD (8 * (k % 3))) := by
  rw [getElem?_pixelbits _ _ (by rwa [length_coverPixels]), getD_coverPixels (by omega)]; rfl

/-- Stream bit `k` of a sample carrier. -/
theorem getElem?_coverSamples_lsb {s : State} {k : Nat} (h : k < s.desc.carLen.toNat) :
    (samplelsbs (coverSamples s))[k]? = some ((s.word .car k).getLsbD 0) := by
  simp [samplelsbs, coverSamples, State.words, h, getlsb]

/-! ### Image in image -/

theorem getLsbD_embIIPixel (w p : Word) (b : Nat) :
    (embIIPixel w p).getLsbD b = if b = 0 ∨ b = 8 ∨ b = 16 then p.getLsbD (b + 7) else w.getLsbD b := by
  unfold embIIPixel
  rw [getLsbD_setlsb _ _ _ _ (by omega), getLsbD_setlsb _ _ _ _ (by omega), getLsbD_setlsb _ _ _ _ (by omega)]
  by_cases h0 : b = 0
  · subst h0; simp
  by_cases h8 : b = 8
  · subst h8; simp
  by_cases h16 : b = 16
  · subst h16; simp
  · simp [h0, h8, h16]

theorem getLsbD_revIIPixel (w : Word) (b : Nat) (hb : b < 32) :
    (revIIPixel w).getLsbD b
      = if b = 7 ∨ b = 15 ∨ b = 23 then w.getLsbD (b - 7) else decide (24 ≤ b) := by
  have key : ∀ x y z : Bool, ∀ b < 32,
      (0xFF#8 ++ (BitVec.ofBool x).setWidth 8 <<< 7 ++ (BitVec.ofBool y).setWidth 8 <<< 7
        ++ (BitVec.ofBool z).setWidth 8 <<< 7 : BitVec 32).getLsbD b
        = if b = 7 then z else if b = 15 then y else if b = 23 then x else decide (24 ≤ b) := by decide
  refine (key _ _ _ b hb).trans ?_
  by_cases h0 : b = 7
  · subst h0; simp [getlsb]
  by_cases h8 : b = 15
  · subst h8; simp [getlsb]
  by_cases h16 : b = 23
  · subst h16; simp [getlsb]
  · simp [h0, h8, h16]

theorem getElem?_embIIResult {s : State} {x y : Nat} (hx : x < s.desc.carW.toNat) (hy : y < s.desc.carH.toNat) :
    (resultOf .embII s).words[y * s.desc.carW.toNat + x]?
      = some (if x < s.desc.payW.toNat ∧ y < s.desc.payH.toNat then
          embIIPixel (s.word .car (y * s.desc.carW.toNat + x)) (s.word .pay (y * s.desc.payW.toNat + x))
        else s.word .car (y * s.desc.carW.toNat + x)) :=
  getElem?_raster _ _ (fun x y =>
    if x < s.desc.payW.toNat ∧ y < s.desc.payH.toNat then
      embIIPixel (s.word .car (y * s.desc.carW.toNat + x)) (s.word .pay (y * s.desc.payW.toNat + x))
    else s.word .car (y * s.desc.carW.toNat + x)) x y hx hy

theorem getElem?_revIIResult {s : State} {x y : Nat} (hx : x < s.desc.payW.toNat) (hy : y < s.desc.payH.toNat) :
    (resultOf .revII s).words[y * s.desc.payW.toNat + x]?
      = some (revIIPixel (s.word .car (y * s.desc.carW.toNat + x))) :=
  getElem?_raster _ _ (fun x y => revIIPixel (s.word .car (y * s.desc.carW.toNat + x))) x y hx hy

/-! ### Text in image -/

/-- Bit `b` of pixel `p` of an EMB_TI result. -/
theorem getLsbD_embTIResult {s : State} {p : Nat} (hp : p < carPixels s) (b : Nat) :
    ((resultOf .embTI s).words.getD p 0#32).getLsbD b
      = if (b = 0 ∨ b = 8 ∨ b = 16) ∧ 3 * p + b / 8 < 8 * s.desc.payLen.toNat then
          (chr (s.word .pay ((3 * p + b / 8) / 8))).getLsbD (7 - (3 * p + b / 8) % 8)
        else (s.word .car p).getLsbD b := by
  rw [show (resultOf .embTI s).words = embedPixels (coverPixels s) (textbits (payText s)) from rfl,
    getLsbD_embedPixels _ _ _ _ (by rwa [length_coverPixels]), getD_coverPixels hp]
  by_cases h : b = 0 ∨ b = 8 ∨ b = 16
  · rw [if_pos (by omega)]
    by_cases hk : 3 * p + b / 8 < 8 * s.desc.payLen.toNat
    · rw [if_pos ⟨h, hk⟩, getElem?_textbits _ _ (by rwa [length_payText]),
        getD_of_getElem? (getElem?_payText (by omega))]; rfl
    · rw [if_neg (by tauto), List.getElem?_eq_none (by simp; omega)]; rfl
  · rw [if_neg (by omega), if_neg (by tauto)]

/-! ### Audio in audio -/

/-- Bit `b` of sample word `k` of an EMB_AA result. -/
theorem getLsbD_embAAResult {s : State} {k : Nat} (hk : k < s.desc.carLen.toNat) (b : Nat) :
    ((resultOf .embAA s).words.getD k 0#32).getLsbD b
      = if b = 0 ∧ k < 16 * s.desc.payLen.toNat then (samp (s.word .pay (k / 16))).getLsbD (k % 16)
        else (s.word .car k).getLsbD b := by
  rw [show (resultOf .embAA s).words = embedSamples (coverSamples s) (samplebits (paySamples s)) from rfl,
    getLsbD_embedSamples _ _ _ _ (by rwa [length_coverSamples]), getD_coverSamples hk]
  by_cases h : b = 0
  · rw [if_pos h]
    by_cases hk' : k < 16 * s.desc.payLen.toNat
    · rw [if_pos ⟨h, hk'⟩, getElem?_samplebits _ _ (by rwa [length_paySamples]),
        getD_of_getElem? (getElem?_paySamples (by omega))]; rfl
    · rw [if_neg (by tauto), List.getElem?_eq_none (by simp; omega)]; rfl
  · rw [if_neg h, if_neg (by tauto)]

/-- Sample `i` of a REV_AA result, bit by bit. -/
theorem getLsbD_revAAResult {s : State} {i : Nat} (hi : i < s.desc.payLen.toNat)
    (hc : 16 * s.desc.payLen.toNat ≤ s.desc.carLen.toNat) (b : Nat) :
    ((resultOf .revAA s).words.getD i 0#32).getLsbD b
      = (decide (b < 16) && (s.word .car (16 * i + b)).getLsbD 0) := by
  have h : (resultOf .revAA s).words.getD i 0#32
      = (orBits 16 fun b => (samplelsbs (coverSamples s)).getD (16 * i + b) false).setWidth 32 :=
    getD_of_getElem? (by simp [resultOf, revAAResult, samplesof, hi]) _
  rw [h, BitVec.getLsbD_setWidth, getLsbD_orBits]
  by_cases hb : b < 16
  · rw [getD_of_getElem? (getElem?_coverSamples_lsb (by omega))]
    simp [hb, show b < 32 by omega]
  · simp [hb]

/-! ### Text in audio -/

/-- Bit `b` of sample word `k` of an EMB_TA result. -/
theorem getLsbD_embTAResult {s : State} {k : Nat} (hk : k < s.desc.carLen.toNat) (b : Nat) :
    ((resultOf .embTA s).words.getD k 0#32).getLsbD b
      = if b = 0 ∧ k < 8 * s.desc.payLen.toNat then (chr (s.word .pay (k / 8))).getLsbD (7 - k % 8)
        else if b = 0 ∧ k < 8 * (s.desc.payLen.toNat + 1) then false
        else (s.word .car k).getLsbD b := by
  rw [show (resultOf .embTA s).words = embedSamples (coverSamples s) (textbits (payText s ++ [0#8])) from rfl,
    getLsbD_embedSamples _ _ _ _ (by rwa [length_coverSamples]), getD_coverSamples hk]
  have hl := length_payText s
  by_cases h : b = 0
  · rw [if_pos h]
    by_cases hk1 : k < 8 * s.desc.payLen.toNat
    · rw [if_pos ⟨h, hk1⟩, getElem?_textbits _ _ (by simp; omega),
        getD_of_getElem? ((List.getElem?_append_left (by rw [hl]; omega)).trans (getElem?_payText (by omega)))]
      rfl
    · rw [if_neg (by tauto)]
      by_cases hk2 : k < 8 * (s.desc.payLen.toNat + 1)
      · rw [if_pos ⟨h, hk2⟩, getElem?_textbits _ _ (by simp; omega)]
        have : k / 8 = (payText s).length := by omega
        simp [List.getD, this]
      · rw [if_neg (by tauto), List.getElem?_eq_none (by simp; omega)]; rfl
  · rw [if_neg h, if_neg (by tauto), if_neg (by tauto)]

/-! ### The bytes of a reveal -/

theorem byte_ext {a b : Byte} (h : ∀ m < 8, a.getLsbD (7 - m) = b.getLsbD (7 - m)) : a = b := by
  apply BitVec.eq_of_getLsbD_eq
  intro i hi
  have := h (7 - i) (by omega)
  rwa [show 7 - (7 - i) = i by omega] at this

/-- Grouping a stream gives the bytes that `BytesOfStream` speaks of. -/
theorem getElem?_bytesof_stream {l : List Bool} {b : Nat → Byte} {f : Nat → Bool} (hb : BytesOfStream b f)
    (hf : ∀ k < l.length, l[k]? = some (f k)) {j : Nat} (hj : j < l.length / 8) :
    (bytesof l)[j]? = some (b j) := by
  rw [getElem?_bytesof l j hj]
  refine congrArg some (byte_ext fun m hm => ?_)
  rw [hb j m hm, getLsbD_orBits, getD_of_getElem? (hf _ (by omega)), show 7 - (7 - m) = m by omega]
  simp [show 7 - m < 8 by omega]

/-- The bytes REV_TI decodes. -/
theorem getElem?_revTIBytes {s : State} {b : Nat → Byte}
    (hb : BytesOfStream b fun k => (s.word .car (k / 3)).getLsbD (8 * (k % 3))) {j : Nat}
    (hj : j < 3 * carPixels s / 8) : (revTIBytes s)[j]? = some (b j) :=
  getElem?_bytesof_stream hb (fun _ hk => getElem?_coverPixels_lsb (by simpa [length_coverPixels] using hk))
    (by simpa [length_coverPixels] using hj)

/-- The bytes REV_TA decodes. -/
theorem getElem?_revTABytes {s : State} {b : Nat → Byte}
    (hb : BytesOfStream b fun k => (s.word .car k).getLsbD 0) {j : Nat}
    (hj : j < s.desc.carLen.toNat / 8) : (revTABytes s)[j]? = some (b j) :=
  getElem?_bytesof_stream hb (fun _ hk => getElem?_coverSamples_lsb (by simpa [length_coverSamples] using hk))
    (by simpa [length_coverSamples] using hj)

end Sys2Proof.Machine
end

