-- ==== Sys2Proof/Laws/PerInstr.lean ====
section
/-! SUPPORT. Statements made for every instruction, one lemma for each constructor. -/

namespace Sys2Proof.Laws

/-- 30_encoding.md R46, R49: the command's word is one of the 32-bit words 1 to 9, the table's numbering gives it
back, and it is decoded to the command. -/
def Encoding.Statement (i : Instr) : Prop :=
  1 ≤ (encode i).toNat ∧ (encode i).toNat ≤ 9 ∧ tableWord 32 (encode i).toNat = some (encode i) ∧
    decode (encode i) = .ok i

theorem Encoding.embII : Encoding.Statement .embII := by unfold Encoding.Statement; decide
theorem Encoding.revII : Encoding.Statement .revII := by unfold Encoding.Statement; decide
theorem Encoding.embTI : Encoding.Statement .embTI := by unfold Encoding.Statement; decide
theorem Encoding.revTI : Encoding.Statement .revTI := by unfold Encoding.Statement; decide
theorem Encoding.embAA : Encoding.Statement .embAA := by unfold Encoding.Statement; decide
theorem Encoding.revAA : Encoding.Statement .revAA := by unfold Encoding.Statement; decide
theorem Encoding.embTA : Encoding.Statement .embTA := by unfold Encoding.Statement; decide
theorem Encoding.revTA : Encoding.Statement .revTA := by unfold Encoding.Statement; decide
theorem Encoding.quit : Encoding.Statement .quit := by unfold Encoding.Statement; decide

end Sys2Proof.Laws
end

