-- ==== Sys2Proof/Laws/Script.lean ====
section
/-! SUPPORT. How turns are used up, and runs of several steps. -/

namespace Sys2Proof.Machine

theorem access_agenda (op : PortOp) (s : State) : (access op s).agenda = s.agenda := by
  cases op with
  | readReg n => rfl
  | reset => rfl
  | readMem m i => obtain ⟨r, d, e⟩ := readMem_respond m i s; simp only [access, e]
  | writeReg n v =>
    simp only [access, respond_agenda, writeReg]
    split
    · unfold writeRegIdle; split <;> rfl
    · rfl
    · rfl
  | writeMem m i v =>
    simp only [access, respond_agenda, writeMem]
    split
    · split <;> simp
    · rfl
    · rfl

/-- A step takes exactly the first turn of the agenda. -/
theorem step_agenda {s t : State} (h : step s = .next t) : t.agenda = s.agenda.tail := by
  have hE : ∀ rest, EngineMoves s rest → rest = s.agenda.tail := by
    rintro rest (⟨h, rfl⟩ | h) <;> simp [h]
  rcases step_next_cases h with ⟨op, rest, ha, rfl⟩ | ⟨rest, hm, _, rfl⟩ | ⟨rest, i, hm, _, _, he⟩ |
    ⟨rest, e, hm, _, _, rfl⟩
  · rw [access_agenda, ha]; rfl
  · exact hE _ hm
  · rw [exec_agenda he]; exact hE _ hm
  · exact hE _ hm

theorem steps_add (m n : Nat) (s : State) :
    steps (m + n) s = match steps m s with
      | .next t => steps n t
      | .fault f => .fault f
      | .refused r => .refused r := by
  induction m generalizing s with
  | zero => simp [steps]
  | succ m ih =>
    rw [Nat.succ_add, steps, steps]
    cases step s with
    | next t => exact ih t
    | fault f => rfl
    | refused r => rfl

theorem steps_succ_next {n : Nat} {s t : State} (h : step s = .next t) : steps (n + 1) s = steps n t := by
  rw [steps, h]

end Sys2Proof.Machine
end

