-- ==== Sys2Proof/Tests/Slice0.lean ====
section
/-! SUPPORT. The model's own tests, and for each obligation that has hypotheses a witness that meets them. Expected
values are those of spec/95_test_vectors.md, or worked out by hand from the rule a test names. -/

namespace Sys2Proof.Tests

open Sys2Proof.Machine

/-! ### Well-formedness: each check of `Line.wf` refuses a term that breaks only it -/

theorem test_wf_pix : Line.wf (.pix .car 0 255 255 255 255) = true := by decide
theorem test_illformed_pix_red : Line.wf (.pix .car 0 256 0 0 0) = false := by decide
theorem test_illformed_pix_green : Line.wf (.pix .car 0 0 256 0 0) = false := by decide
theorem test_illformed_pix_blue : Line.wf (.pix .car 0 0 0 256 0) = false := by decide
theorem test_illformed_pix_alpha : Line.wf (.pix .car 0 0 0 0 256) = false := by decide
theorem test_wf_smp : Line.wf (.smp .car 0 (-32768)) = true ∧ Line.wf (.smp .car 0 32767) = true := by decide
theorem test_illformed_smp_low : Line.wf (.smp .car 0 (-32769)) = false := by decide
theorem test_illformed_smp_high : Line.wf (.smp .car 0 32768) = false := by decide
theorem test_wf_txt : Line.wf (.txt [104, 105, 0x23, 0x23, 0x23]) = true := by decide
theorem test_illformed_txt_code : Line.wf (.txt [104, 256]) = false := by decide

/-- A text longer than any value of PAY_LEN is refused. -/
theorem test_illformed_txt_length (codes : List Nat) (h : 2 ^ 32 ≤ codes.length) : Line.wf (.txt codes) = false := by
  rw [Line.wf, Bool.and_eq_false_iff]
  exact .inr (by simpa using h)

theorem test_illformed_script :
    Script.wf (.ifStatus 2 .done (.line (.smp .pay 0 40000) .done) .done) = false := by decide

/-! ### Decoding: the words of 30_encoding.md R49, bit by bit -/

theorem test_decode_emb_ii : decode 0b00000000000000000000000000000001#32 = .ok .embII := by decide
theorem test_decode_rev_ii : decode 0b00000000000000000000000000000010#32 = .ok .revII := by decide
theorem test_decode_emb_ti : decode 0b00000000000000000000000000000011#32 = .ok .embTI := by decide
theorem test_decode_rev_ti : decode 0b00000000000000000000000000000100#32 = .ok .revTI := by decide
theorem test_decode_emb_aa : decode 0b00000000000000000000000000000101#32 = .ok .embAA := by decide
theorem test_decode_rev_aa : decode 0b00000000000000000000000000000110#32 = .ok .revAA := by decide
theorem test_decode_emb_ta : decode 0b00000000000000000000000000000111#32 = .ok .embTA := by decide
theorem test_decode_rev_ta : decode 0b00000000000000000000000000001000#32 = .ok .revTA := by decide
theorem test_decode_quit : decode 0b00000000000000000000000000001001#32 = .ok .quit := by decide

/-- 95_test_vectors.md V9: the whole word is the opcode. -/
theorem test_decode_rejects :
    decode 0#32 = .error (.invalidCommand 0#32) ∧ decode 10#32 = .error (.invalidCommand 10#32) ∧
    decode 0xFFFFFFFF#32 = .error (.invalidCommand 0xFFFFFFFF#32) ∧
    decode 0x00010001#32 = .error (.invalidCommand 0x00010001#32) := by decide

/-- No two rows of the opcode table match one word. -/
theorem test_opcode_rows_disjoint :
    opcodeTable.Pairwise fun a b => a.pattern &&& (a.mask &&& b.mask) ≠ b.pattern &&& (a.mask &&& b.mask) := by
  decide

theorem test_decode_table_word :
    decodeTableWord 32 7 = some .embTA ∧ decodeTableWord 32 10 = none ∧ decodeTableWord 8 0x109 = some .quit := by
  decide

/-! ### The commands on small states -/

/-- A memory that holds the given words from index 0. -/
def cells (l : List Word) : Memory := ⟨numberFrom 0 l⟩

/-- An image descriptor. -/
def imageDesc (cw ch pw ph : Word) : Descriptor := ⟨cw, ch, 0#32, pw, ph, 0#32, .zero⟩

/-- An audio descriptor. -/
def audioDesc (car pay : Word) (p : AudioParams) : Descriptor := ⟨0#32, 0#32, car, 0#32, 0#32, pay, p⟩

/-- The reset state with a descriptor and the contents of CAR and PAY. -/
def loaded (d : Descriptor) (car pay : List Word) : State :=
  { State.reset with desc := d, car := cells car, pay := cells pay }

/-- STATUS, OUT_LEN and the first `n` words of OUT after a command. -/
def after (n : Nat) : Host.Outcome State Fault Refusal → Option (Word × Word × List Word)
  | .next t => some (regValue 1 t, regValue 10 t, t.words .out n)
  | .fault _ => none
  | .refused _ => none

/-- The OUT parameter block after a command. -/
def paramsAfter : Host.Outcome State Fault Refusal → Option AudioParams
  | .next t => some t.res.params
  | .fault _ => none
  | .refused _ => none

/-- The cover of 95_test_vectors.md V6. -/
def coverV6 : List Word :=
  [0x0D0C0B0A#32, 0x00FDFEFF#32, 0x00000000#32, 0xC8666564#32, 0x04030201#32, 0x4D4D4D4D#32]

/-- The secret of 95_test_vectors.md V6. -/
def secretV6 : List Word := [0x09FF7F80#32, 0x0040C800#32, 0xFFFFFFFF#32, 0x0100807F#32]

/-- The stego image of 95_test_vectors.md V6 (a). -/
def stegoV6 : List Word :=
  [0x0D0D0A0B#32, 0x00FCFFFE#32, 0x00000000#32, 0xC8676565#32, 0x04020300#32, 0x4D4D4D4D#32]

def embIIState : State := loaded (imageDesc 3#32 2#32 2#32 2#32) coverV6 secretV6

def revIIState : State := loaded (imageDesc 3#32 2#32 2#32 2#32) stegoV6 []

/-- V6 (a). -/
theorem test_emb_ii : after 6 (exec .embII embIIState) = some (0x004#32, 0#32, stegoV6) := by decide

/-- V6 (d): a secret 4 wide, though of only four pixels. -/
theorem test_emb_ii_capacity :
    after 0 (exec .embII (loaded (imageDesc 3#32 2#32 4#32 1#32) coverV6 secretV6)) = some (0x104#32, 0#32, []) := by
  decide

/-- V6 (b). -/
theorem test_rev_ii : after 4 (exec .revII revIIState)
    = some (0x004#32, 0#32, [0xFF800080#32, 0xFF008000#32, 0xFF808080#32, 0xFF008000#32]) := by decide

/-- V6 (e). -/
theorem test_rev_ii_range :
    after 0 (exec .revII (loaded (imageDesc 3#32 2#32 4#32 1#32) stegoV6 [])) = some (0x204#32, 0#32, []) := by decide

/-- V3 (c), with the high bits of the character word set: a partial last pixel. -/
def embTIState : State :=
  loaded { imageDesc 3#32 1#32 0#32 0#32 with payLen := 1#32 } [0x00000000#32, 0xFFFFFFFF#32, 0x80FFFFFF#32]
    [0xDEADBE41#32]

theorem test_emb_ti : after 3 (exec .embTI embTIState)
    = some (0x004#32, 0#32, [0x00000100#32, 0xFFFEFEFE#32, 0x80FFFFFE#32]) := by decide

/-- V3 (b): 32 bits into 27. -/
theorem test_emb_ti_capacity :
    after 0 (exec .embTI (loaded { imageDesc 9#32 1#32 0#32 0#32 with payLen := 4#32 } [] []))
      = some (0x104#32, 0#32, []) := by decide

/-- V4 (a): the first marker wins; the text is "a". -/
def revTIState : State :=
  loaded (imageDesc 20#32 1#32 0#32 0#32)
    ([0x00010100#32, 0x00000000#32, 0x00000100#32, 0x00000100#32, 0x00010000#32, 0x00000001#32, 0x00000001#32,
      0x00010100#32, 0x00010000#32, 0x00000000#32, 0x00000101#32, 0x00000100#32, 0x00010000#32, 0x00000001#32]
      ++ List.replicate 6 0#32) []

theorem test_rev_ti : after 1 (exec .revTI revTIState) = some (0x00C#32, 1#32, [0x00000061#32]) := by decide

/-- V5 (b): one byte only, nothing to find. -/
theorem test_rev_ti_nothing :
    after 0 (exec .revTI (loaded (imageDesc 3#32 1#32 0#32 0#32) [0x00010000#32, 0x00000000#32, 0x00000101#32] []))
      = some (0x004#32, 0#32, []) := by decide

/-- V7 (e): the high halves of cover words are copied, that of the secret word is ignored. -/
def embAAState : State :=
  loaded (audioDesc 16#32 1#32 ⟨2#32, 16#32, 44100#32, 17#32, 0#32⟩)
    ((List.range 16).map fun k => if k % 2 = 0 then 0xABCD0000#32 else 0xABCDFFFF#32) [0xFFFF00A5#32]

theorem test_emb_aa : after 16 (exec .embAA embAAState)
    = some (0x004#32, 16#32, [0xABCD0001#32, 0xABCDFFFE#32, 0xABCD0001#32, 0xABCDFFFE#32, 0xABCD0000#32, 0xABCDFFFF#32,
        0xABCD0000#32, 0xABCDFFFF#32, 0xABCD0000#32, 0xABCDFFFE#32, 0xABCD0000#32, 0xABCDFFFE#32, 0xABCD0000#32,
        0xABCDFFFE#32, 0xABCD0000#32, 0xABCDFFFE#32]) := by decide

/-- V7 (f): both errors at once. -/
theorem test_emb_aa_both_errors :
    after 0 (exec .embAA { loaded (audioDesc 50#32 100#32 .zero) [] [] with cfg := ⟨none, some 64, none⟩ })
      = some (0x304#32, 0#32, []) := by decide

/-- V7 (e): the carrier whose LSBs are the bits of 0x8001. -/
def revAAState : State :=
  loaded (audioDesc 16#32 1#32 ⟨2#32, 8#32, 22050#32, 99#32, 7#32⟩)
    ((List.range 16).map fun k => if k = 0 ∨ k = 15 then 0xABCD0001#32 else 0xABCD0000#32) []

theorem test_rev_aa : after 1 (exec .revAA revAAState) = some (0x004#32, 1#32, [0x00008001#32]) := by decide

theorem test_rev_aa_params :
    paramsAfter (exec .revAA revAAState) = some ⟨1#32, 16#32, 22050#32, 1#32, 7#32⟩ := by decide

/-- The cover of 95_test_vectors.md V8. -/
def coverV8 : List Word :=
  [0x7FFF#32, 0x8000#32, 0xFFFF#32, 0x0000#32, 0x0001#32, 0x0002#32, 0x0003#32, 0x0004#32]
    ++ List.replicate 8 0x0005#32 ++ [0xFFFF#32, 0xABCD#32]

/-- The stego samples of 95_test_vectors.md V8 (a). -/
def stegoV8 : List Word :=
  [0x7FFE#32, 0x8001#32, 0xFFFE#32, 0x0000#32, 0x0000#32, 0x0002#32, 0x0002#32, 0x0005#32]
    ++ List.replicate 8 0x0004#32 ++ [0xFFFF#32, 0xABCD#32]

def embTAState : State := loaded (audioDesc 18#32 1#32 ⟨1#32, 16#32, 8000#32, 18#32, 0#32⟩) coverV8 [0x41#32]

/-- V8 (a). -/
theorem test_emb_ta : after 18 (exec .embTA embTAState) = some (0x004#32, 18#32, stegoV8) := by decide

/-- V8 (c). -/
theorem test_emb_ta_capacity :
    after 0 (exec .embTA (loaded (audioDesc 15#32 1#32 .zero) [] [])) = some (0x104#32, 0#32, []) := by decide

def revTAState : State := loaded (audioDesc 18#32 0#32 ⟨1#32, 16#32, 8000#32, 18#32, 0#32⟩) stegoV8 []

/-- V8 (b). -/
theorem test_rev_ta : after 1 (exec .revTA revTAState) = some (0x00C#32, 1#32, [0x00000041#32]) := by decide

/-- V8 (f): eight zero bits that straddle a byte boundary are no terminator. -/
theorem test_rev_ta_straddle :
    after 0 (exec .revTA (loaded (audioDesc 16#32 0#32 .zero)
      (List.replicate 4 1#32 ++ List.replicate 8 0#32 ++ List.replicate 4 1#32) [])) = some (0x004#32, 0#32, []) := by
  decide

/-- V9. -/
theorem test_quit : after 0 (exec .quit State.reset) = some (0x006#32, 0#32, []) := by decide

/-- V9: word 10, placed and run. -/
theorem test_invalid : after 0 (step (State.reset.withFetchWord 32 10)) = some (0x404#32, 0#32, []) := by decide

/-- A placed command runs as the first one after reset. -/
theorem test_placed_quit : after 0 (step (State.reset.withFetchWord 32 9)) = some (0x006#32, 0#32, []) := by decide

/-! ### Witnesses: for each obligation with hypotheses, a state and operands that meet all of them -/

theorem witness_DecodeAndEncodeAgree : Instr.embTA.wf = true ∧ decode 7#32 = .ok .embTA := by decide

/-- A BUSY state whose command word is `v`. -/
def busyWith (v : Word) (a : List Turn) : State := { start v embIIState with agenda := a }

theorem witness_StepRunsTheDecodedCommand :
    (busyWith 1#32 [.engine, .port .reset]).run = .busy ∧
    EngineMoves (busyWith 1#32 [.engine, .port .reset]) [.port .reset] ∧
    decode (busyWith 1#32 [.engine, .port .reset]).cmd = .ok .embII ∧ Instr.embII.wf = true :=
  ⟨rfl, .inr rfl, by decide, rfl⟩

/-- The other form of `EngineMoves`. -/
theorem witness_EngineMoves_empty : EngineMoves (busyWith 9#32 []) [] := .inl ⟨rfl, rfl⟩

/-- The words 0, 10 and the largest, at the completion step. -/
theorem witness_InvalidCommandCompletes :
    (busyWith 0#32 []).cmd.toNat = 0 ∧ 10 ≤ (busyWith 10#32 []).cmd.toNat ∧
    10 ≤ (busyWith 0xFFFFFFFF#32 []).cmd.toNat := by decide

theorem witness_StepPerformsTheHostTransaction :
    (busyWith 1#32 [.port (.readReg 1), .engine]).agenda = .port (.readReg 1) :: [.engine] := rfl

/-- A HALTED state. -/
def haltedWith (a : List Turn) : State := { halt stegoState with agenda := a }
where
  stegoState : State := { embIIState with out := cells stegoV6, cfg := ⟨some 6, some 4, some 6⟩ }

theorem witness_WaitingEngineTakesNoStep :
    (haltedWith [.engine]).run ≠ .busy ∧ EngineMoves (haltedWith [.engine]) [] ∧
    embIIState.run ≠ .busy ∧ EngineMoves embIIState [] :=
  ⟨by decide, .inr rfl, by decide, .inl ⟨rfl, rfl⟩⟩

/-- HALTED, a transaction that is not reset, and a memory read at the last index below the depth. -/
theorem witness_QuitHaltsUntilReset :
    (haltedWith []).run = .halted ∧ PortOp.writeReg 0 8#32 ≠ .reset ∧
    Below 5 (depthOf (haltedWith []).cfg .out) := by
  simp only [below_iff]; decide

/-- Every reserved register number, and no implemented one. -/
theorem witness_ReservedNumber :
    ∀ n : Fin 32, ReservedNumber n.val ↔ n ∈ [11, 12, 13, 14, 15, 21, 22, 23, 29, 30, 31] := by
  unfold ReservedNumber; decide

/-- Every RW register number but that of CMD, and no other. -/
theorem witness_DescriptorNumber :
    ∀ n : Fin 32, DescriptorNumber n.val ↔ n ∈ [2, 3, 4, 5, 6, 7, 16, 17, 18, 19, 20] := by
  unfold DescriptorNumber; decide

/-- The boundaries of the reserved STATUS bits. -/
theorem witness_StatusRegisterFields :
    ∀ i ∈ [4, 7, 11, 31, 32], (4 ≤ i ∧ i ≤ 7) ∨ 11 ≤ i := by decide

/-- An IDLE state with a host transaction ahead. -/
def idleWith (op : PortOp) : State := { embIIState with agenda := [.port op], cfg := ⟨some 6, some 4, none⟩ }

/-- An implemented register and a reserved number. -/
theorem witness_RegisterReadHasNoSideEffect : regAt 28 = some .outComp ∧ ReservedNumber (31 : Fin 32).val := by
  unfold ReservedNumber; decide

/-- Each clause: CMD, the first and last RW registers, the RO and reserved numbers around them, BUSY and HALTED. -/
theorem witness_RegisterWriteEffect :
    embIIState.run = .idle ∧ (∀ n ∈ [(2 : Fin 32), 7, 16, 20], DescriptorNumber n.val) ∧
    (∀ n ∈ [(1 : Fin 32), 8, 10, 11, 15, 21, 23, 24, 31], n ≠ 0 ∧ ¬ DescriptorNumber n.val) ∧
    (busyWith 1#32 []).run ≠ .idle ∧ (haltedWith []).run ≠ .idle := by
  unfold DescriptorNumber; decide

/-- Each clause: a write in IDLE at the last index below the depth, one at the depth, one in BUSY; reads likewise. -/
theorem witness_MemoryPortAccess :
    (idleWith .reset).run = .idle ∧
    Below 5 (depthOf (idleWith .reset).cfg .car) ∧ ¬ Below 6 (depthOf (idleWith .reset).cfg .car) ∧
    (busyWith 1#32 []).run ≠ .idle ∧
    (haltedWith []).run ≠ .busy ∧ Below 5 (depthOf (haltedWith []).cfg .out) ∧
    (busyWith 1#32 []).run = .busy ∧ Below 0 (depthOf (busyWith 1#32 []).cfg .out) ∧
    ¬ Below 4 (depthOf (idleWith .reset).cfg .pay) := by
  simp only [below_iff]; decide

theorem witness_BusyEngineOwnsEverything :
    (busyWith 1#32 []).run = .busy ∧ PortOp.writeMem .car 0 0#32 ≠ .reset ∧ PortOp.readReg 1 ≠ .reset ∧
    PortOp.readMem .out 0 ≠ .reset ∧ Below 0 (depthOf (busyWith 1#32 []).cfg .out) := by
  simp only [below_iff]; decide

theorem witness_ReadsAndRepeatedCommandsChangeNothing : ∃ t, exec .embII embIIState = .next t := ⟨_, rfl⟩

/-- A capacity error alone, a range error alone, and both. -/
theorem witness_ExceptionChangesOnlyStatus :
    (capacityError .embTA (loaded (audioDesc 15#32 1#32 .zero) [] []) = true ∧
      rangeError .embTA (loaded (audioDesc 15#32 1#32 .zero) [] []) = false) ∧
    (capacityError .revII (loaded (imageDesc 3#32 2#32 4#32 1#32) [] []) = false ∧
      rangeError .revII (loaded (imageDesc 3#32 2#32 4#32 1#32) [] []) = true) ∧
    (capacityError .embAA { loaded (audioDesc 50#32 100#32 .zero) [] [] with cfg := ⟨none, some 64, none⟩ } = true ∧
      rangeError .embAA { loaded (audioDesc 50#32 100#32 .zero) [] [] with cfg := ⟨none, some 64, none⟩ } = true) := by
  decide

/-- Every command answers a next state somewhere, the errors on both sides; and an invalid word does. -/
theorem witness_CapacityErrorIsRaisedExactly :
    (∃ t, exec .embII embIIState = .next t ∧ t.status.errCap = false) ∧
    (∃ t, exec .embII (loaded (imageDesc 3#32 2#32 4#32 1#32) coverV6 secretV6) = .next t ∧
      t.status.errCap = true) ∧
    (∃ t, exec .embTI embTIState = .next t) ∧ (∃ t, exec .embAA embAAState = .next t) ∧
    (∃ t, exec .embTA embTAState = .next t) ∧ (∃ t, exec .revTI revTIState = .next t) ∧
    (10 ≤ (busyWith 10#32 []).cmd.toNat ∧ ∃ t, complete (busyWith 10#32 []) = .next t) :=
  ⟨⟨_, rfl, rfl⟩, ⟨_, rfl, rfl⟩, ⟨_, rfl⟩, ⟨_, rfl⟩, ⟨_, rfl⟩, ⟨_, rfl⟩, by decide, _, rfl⟩

theorem witness_RangeErrorIsRaisedExactly :
    (∃ t, exec .revII revIIState = .next t ∧ t.status.errRange = false) ∧
    (∃ t, exec .revII (loaded (imageDesc 3#32 2#32 4#32 1#32) stegoV6 []) = .next t ∧ t.status.errRange = true) ∧
    (∃ t, exec .revAA revAAState = .next t) ∧ (∃ t, exec .revTA revTAState = .next t) ∧
    (∃ t, exec .quit embIIState = .next t) :=
  ⟨⟨_, rfl, rfl⟩, ⟨_, rfl, rfl⟩, ⟨_, rfl⟩, ⟨_, rfl⟩, _, rfl⟩

/-- Two states that differ in every memory word and in the parameters. -/
theorem witness_DataRaisesNoException :
    let s := embTAState
    let t := { embTAState with car := cells (List.replicate 18 7#32), pay := cells [9#32],
                               desc := { embTAState.desc with params := ⟨9#32, 9#32, 9#32, 9#32, 9#32⟩ } }
    s.cfg = t.cfg ∧ { s.desc with params := AudioParams.zero } = { t.desc with params := AudioParams.zero } ∧
    (∃ s', exec .embTA s = .next s') ∧ ∃ t', exec .embTA t = .next t' :=
  ⟨rfl, rfl, ⟨_, rfl⟩, _, rfl⟩

/-- V5 (b) and V8 (f). -/
theorem witness_MissingTerminatorIsNoException :
    (∃ t, exec .revTI (loaded (imageDesc 3#32 1#32 0#32 0#32) [0x00010000#32, 0x00000000#32, 0x00000101#32] [])
      = .next t ∧ t.status = ⟨true, false, false, false, false⟩) ∧
    (∃ t, exec .revTA (loaded (audioDesc 16#32 0#32 .zero)
      (List.replicate 4 1#32 ++ List.replicate 8 0#32 ++ List.replicate 4 1#32) [])
      = .next t ∧ t.status = ⟨true, false, false, false, false⟩) :=
  ⟨⟨_, rfl, by decide⟩, ⟨_, rfl, by decide⟩⟩

/-- An image result of six words, a text result of one. -/
theorem witness_ResultExtentIsExactlyWhatIsWritten :
    (∃ t, exec .embII embIIState = .next t ∧ t.status.errCap = false ∧ t.status.errRange = false ∧
      t.res.outW.toNat * t.res.outH.toNat = 6) ∧
    (∃ t, exec .revTA revTAState = .next t ∧ t.status.errCap = false ∧ t.status.errRange = false ∧
      t.res.outLen.toNat = 1) :=
  ⟨⟨_, rfl, rfl, rfl, rfl⟩, ⟨_, rfl, rfl, rfl, by decide⟩⟩

/-- `Beyond` on both sides of a depth, and against an unbounded one. -/
theorem witness_Beyond : Beyond 5 (some 4) ∧ ¬ Beyond 4 (some 4) ∧ ¬ Beyond (2 ^ 64) none := by
  simp only [beyond_iff]; decide

/-- The image carriers at the boundaries of the conditions: `w` columns, `h` rows, a payload `pw` by `ph` and of
`n` characters. -/
def imageAt (w h pw ph n : Word) (depths : Config) : State :=
  { loaded { imageDesc w h pw ph with payLen := n } [] [] with cfg := depths }

/-- The audio carriers at the boundaries: `n` carrier samples, `k` payload units. -/
def audioAt (n k : Word) (depths : Config) : State := { loaded (audioDesc n k .zero) [] [] with cfg := depths }

/-- The conditions of the statement on embII, as it writes them. -/
def embIIHyps (s : State) (cap rng : Bool) : Prop :=
  (cap = true ↔ s.desc.carW.toNat < s.desc.payW.toNat ∨ s.desc.carH.toNat < s.desc.payH.toNat) ∧
  (rng = true ↔ Beyond (s.desc.carW.toNat * s.desc.carH.toNat) s.cfg.carDepth ∨
      Beyond (s.desc.payW.toNat * s.desc.payH.toNat) s.cfg.payDepth ∨
      Beyond (s.desc.carW.toNat * s.desc.carH.toNat) s.cfg.outDepth)

/-- A secret of the cover's own size runs; one column more, or a carrier deeper than CAR, does not (V6 (d)). -/
theorem witness_EmbIIEmbedsTopBits_conditions :
    embIIHyps (imageAt 3#32 2#32 3#32 2#32 0#32 ⟨some 6, some 6, some 6⟩) false false ∧
    embIIHyps (imageAt 3#32 2#32 4#32 2#32 0#32 ⟨none, none, none⟩) true false ∧
    embIIHyps (imageAt 3#32 2#32 3#32 2#32 0#32 ⟨some 5, none, none⟩) false true := by
  simp only [embIIHyps, beyond_iff]; decide

/-- The conditions of the statement on revII, as it writes them. -/
def revIIHyps (s : State) (rng : Bool) : Prop :=
  rng = true ↔ Beyond (s.desc.carW.toNat * s.desc.carH.toNat) s.cfg.carDepth ∨
      s.desc.carW.toNat < s.desc.payW.toNat ∨
      s.desc.carH.toNat < s.desc.payH.toNat ∨
      Beyond (s.desc.payW.toNat * s.desc.payH.toNat) s.cfg.outDepth

/-- The recovered size fits in the carrier, or is one column wider than it (V6 (e)). -/
theorem witness_RevIIRecoversOneBitChannels_conditions :
    revIIHyps (imageAt 3#32 2#32 3#32 2#32 0#32 ⟨some 6, none, some 6⟩) false ∧
    revIIHyps (imageAt 3#32 2#32 4#32 1#32 0#32 ⟨none, none, none⟩) true := by
  simp only [revIIHyps, beyond_iff]; decide

/-- The conditions of the statement on embTI, as it writes them. -/
def embTIHyps (s : State) (cap rng : Bool) : Prop :=
  (cap = true ↔ 3 * (s.desc.carW.toNat * s.desc.carH.toNat) < 8 * s.desc.payLen.toNat) ∧
  (rng = true ↔ Beyond (s.desc.carW.toNat * s.desc.carH.toNat) s.cfg.carDepth ∨
      Beyond s.desc.payLen.toNat s.cfg.payDepth ∨
      Beyond (s.desc.carW.toNat * s.desc.carH.toNat) s.cfg.outDepth)

/-- 24 bits into 8 pixels run, into 7 they do not (95_test_vectors.md S5); a depth one short. -/
theorem witness_EmbTIEmbedsCharacterBits_conditions :
    embTIHyps (imageAt 8#32 1#32 0#32 0#32 3#32 ⟨some 8, some 3, some 8⟩) false false ∧
    embTIHyps (imageAt 7#32 1#32 0#32 0#32 3#32 ⟨none, none, none⟩) true false ∧
    embTIHyps (imageAt 8#32 1#32 0#32 0#32 3#32 ⟨none, some 2, none⟩) false true := by
  simp only [embTIHyps, beyond_iff]; decide

/-- The conditions of the statement on revTI, as it writes them. -/
def revTIHyps (s : State) (rng : Bool) : Prop :=
  rng = true ↔ Beyond (s.desc.carW.toNat * s.desc.carH.toNat) s.cfg.carDepth ∨
      Beyond (3 * (s.desc.carW.toNat * s.desc.carH.toNat) / 8) s.cfg.outDepth

/-- An OUT of four words for four bytes, and for five (V5 (e)). -/
theorem witness_RevTIRecoversTextBeforeMarker_conditions :
    revTIHyps (imageAt 4#32 3#32 0#32 0#32 0#32 ⟨none, none, some 4⟩) false ∧
    revTIHyps (imageAt 5#32 3#32 0#32 0#32 0#32 ⟨none, none, some 4⟩) true := by
  simp only [revTIHyps, beyond_iff]; decide

/-- The conditions of the statement on embAA, as it writes them. -/
def embAAHyps (s : State) (cap rng : Bool) : Prop :=
  (cap = true ↔ s.desc.carLen.toNat < 16 * s.desc.payLen.toNat) ∧
  (rng = true ↔ Beyond s.desc.carLen.toNat s.cfg.carDepth ∨
      Beyond s.desc.payLen.toNat s.cfg.payDepth ∨
      Beyond s.desc.carLen.toNat s.cfg.outDepth)

/-- 2 samples into 32 cover samples run, into 31 they do not (S5); a depth one short. -/
theorem witness_EmbAAEmbedsSampleBits_conditions :
    embAAHyps (audioAt 32#32 2#32 ⟨some 32, some 2, some 32⟩) false false ∧
    embAAHyps (audioAt 31#32 2#32 ⟨none, none, none⟩) true false ∧
    embAAHyps (audioAt 32#32 2#32 ⟨none, none, some 31⟩) false true := by
  simp only [embAAHyps, beyond_iff]; decide

/-- The conditions of the statement on revAA, as it writes them. -/
def revAAHyps (s : State) (rng : Bool) : Prop :=
  rng = true ↔ Beyond s.desc.carLen.toNat s.cfg.carDepth ∨
      s.desc.carLen.toNat < 16 * s.desc.payLen.toNat ∨
      Beyond s.desc.payLen.toNat s.cfg.outDepth

/-- Two samples from 32, and from 31. -/
theorem witness_RevAARecoversSamples_conditions :
    revAAHyps (audioAt 32#32 2#32 ⟨some 32, none, some 2⟩) false ∧
    revAAHyps (audioAt 31#32 2#32 ⟨none, none, none⟩) true := by
  simp only [revAAHyps, beyond_iff]; decide

/-- The conditions of the statement on embTA, as it writes them. -/
def embTAHyps (s : State) (cap rng : Bool) : Prop :=
  (cap = true ↔ s.desc.carLen.toNat < 8 * (s.desc.payLen.toNat + 1)) ∧
  (rng = true ↔ Beyond s.desc.carLen.toNat s.cfg.carDepth ∨
      Beyond s.desc.payLen.toNat s.cfg.payDepth ∨
      Beyond s.desc.carLen.toNat s.cfg.outDepth)

/-- One character and its terminator into 16 cover samples run, into 15 they do not (S5); a depth one short. -/
theorem witness_EmbTAEmbedsTextAndTerminator_conditions :
    embTAHyps (audioAt 16#32 1#32 ⟨some 16, some 1, some 16⟩) false false ∧
    embTAHyps (audioAt 15#32 1#32 ⟨none, none, none⟩) true false ∧
    embTAHyps (audioAt 16#32 1#32 ⟨some 15, none, none⟩) false true := by
  simp only [embTAHyps, beyond_iff]; decide

/-- The conditions of the statement on revTA, as it writes them. -/
def revTAHyps (s : State) (rng : Bool) : Prop :=
  rng = true ↔ Beyond s.desc.carLen.toNat s.cfg.carDepth ∨
      Beyond (s.desc.carLen.toNat / 8) s.cfg.outDepth

/-- An OUT of two words for two bytes, and for three (V8 (g)). -/
theorem witness_RevTARecoversTextBeforeZero_conditions :
    revTAHyps (audioAt 23#32 0#32 ⟨none, none, some 2⟩) false ∧
    revTAHyps (audioAt 24#32 0#32 ⟨none, none, some 2⟩) true := by
  simp only [revTAHyps, beyond_iff]; decide

/-- The bytes of a stream, whatever it is. -/
def streamBytes (f : Nat → Bool) (j : Nat) : Byte := orBits 8 fun i => f (8 * j + (7 - i))

/-- Every stream has its sequence of bytes, so `BytesOfStream` can always be met. -/
theorem witness_BytesOfStream (f : Nat → Bool) : BytesOfStream (streamBytes f) f := by
  intro j m hm
  rw [streamBytes, getLsbD_orBits, show 7 - (7 - m) = m by omega]
  simp [show 7 - m < 8 by omega]

/-- The bytes of the carrier of V8 (b): 0x41, then the terminator at 1. -/
theorem witness_RevTARecoversTextBeforeZero :
    Admits .revTA revTAState ∧ 1 < revTAState.desc.carLen.toNat / 8 ∧
    streamBytes (fun k => (revTAState.word .car k).getLsbD 0) 1 = 0#8 ∧
    streamBytes (fun k => (revTAState.word .car k).getLsbD 0) 0 ≠ 0#8 := by decide

/-- 16 samples with LSBs 1111000000001111: no byte is 0 (V8 (f)). -/
def noZeroState : State :=
  loaded (audioDesc 16#32 0#32 .zero) (List.replicate 4 1#32 ++ List.replicate 8 0#32 ++ List.replicate 4 1#32) []

theorem witness_RevTARecoversTextBeforeZero_none :
    Admits .revTA noZeroState ∧
    ∀ j, j < noZeroState.desc.carLen.toNat / 8 →
      streamBytes (fun k => (noZeroState.word .car k).getLsbD 0) j ≠ 0#8 := by
  refine ⟨by decide, fun j hj => ?_⟩
  have : j = 0 ∨ j = 1 := by
    have : noZeroState.desc.carLen.toNat / 8 = 2 := by decide
    omega
  rcases this with rfl | rfl <;> decide

/-- The stream of a pixel carrier. -/
def pixelStream (s : State) (k : Nat) : Bool := (s.word .car (k / 3)).getLsbD (8 * (k % 3))

/-- The bytes of the carrier of V4 (a): the first marker ends at byte 3. -/
theorem witness_RevTIRecoversTextBeforeMarker :
    Admits .revTI revTIState ∧ 3 < 3 * revTIState.desc.carW.toNat * revTIState.desc.carH.toNat / 8 ∧
    MarkerEndsAt (streamBytes (pixelStream revTIState)) 3 ∧
    (∀ k, k < 3 → ¬ MarkerEndsAt (streamBytes (pixelStream revTIState)) k) ∧ 3 - 2 < 2 ^ 32 := by
  unfold MarkerEndsAt; decide

/-- The carrier of V5 (b): one byte, no marker. -/
def noMarkerState : State :=
  loaded (imageDesc 3#32 1#32 0#32 0#32) [0x00010000#32, 0x00000000#32, 0x00000101#32] []

theorem witness_RevTIRecoversTextBeforeMarker_none :
    Admits .revTI noMarkerState ∧
    ∀ j, j < 3 * noMarkerState.desc.carW.toNat * noMarkerState.desc.carH.toNat / 8 →
      ¬ MarkerEndsAt (streamBytes (pixelStream noMarkerState)) j := by
  refine ⟨by decide, fun j hj h => ?_⟩
  have : 3 * noMarkerState.desc.carW.toNat * noMarkerState.desc.carH.toNat / 8 = 1 := by decide
  have := h.1
  omega

/-- The same two carriers with depths that just hold them: no terminator among their bytes. -/
theorem witness_MissingTerminatorIsNoException_conditions :
    let s := { noMarkerState with cfg := ⟨some 3, none, some 1⟩ }
    let u := { noZeroState with cfg := ⟨some 16, none, some 2⟩ }
    (¬ Beyond (s.desc.carW.toNat * s.desc.carH.toNat) s.cfg.carDepth ∧
      ¬ Beyond (3 * (s.desc.carW.toNat * s.desc.carH.toNat) / 8) s.cfg.outDepth ∧
      BytesOfStream (streamBytes (pixelStream s)) (fun k => (s.word .car (k / 3)).getLsbD (8 * (k % 3))) ∧
      ∀ j, j < 3 * s.desc.carW.toNat * s.desc.carH.toNat / 8 → ¬ MarkerEndsAt (streamBytes (pixelStream s)) j) ∧
    (¬ Beyond u.desc.carLen.toNat u.cfg.carDepth ∧ ¬ Beyond (u.desc.carLen.toNat / 8) u.cfg.outDepth ∧
      BytesOfStream (streamBytes fun k => (u.word .car k).getLsbD 0) (fun k => (u.word .car k).getLsbD 0) ∧
      ∀ j, j < u.desc.carLen.toNat / 8 → streamBytes (fun k => (u.word .car k).getLsbD 0) j ≠ 0#8) := by
  refine ⟨⟨?_, ?_, witness_BytesOfStream _, witness_RevTIRecoversTextBeforeMarker_none.2⟩,
    ?_, ?_, witness_BytesOfStream _, witness_RevTARecoversTextBeforeZero_none.2⟩ <;> rw [beyond_iff] <;> decide

/-- `8 * n` white pixels, then the 8 pixels that hold "###" (95_test_vectors.md V3 (a)). -/
def lateMarker (n : Nat) : List Word :=
  List.replicate (8 * n) 0xFFFFFFFF#32 ++
    [0x00010000#32, 0x00000000#32, 0x00000101#32, 0x00000100#32, 0x00010000#32, 0x00000001#32, 0x00000001#32,
     0x00010100#32]

/-- A carrier of 8 by `n + 1` pixels with those words. -/
def lateMarkerState (n : Nat) : State :=
  { State.reset with desc := imageDesc 8#32 (BitVec.ofNat 32 (n + 1)) 0#32 0#32
                     car := (Memory.unwritten).setPrefix (lateMarker n) }

theorem word_lateMarker {n k : Nat} (h : k < 8 * n + 8) :
    (lateMarkerState n).word .car k = (lateMarker n)[k]'(by simpa [lateMarker] using h) := by
  have hl : k < (lateMarker n).length := by simpa [lateMarker] using h
  simp [State.word, State.mem, lateMarkerState, get?_setPrefix, hl]

theorem word_lateMarker_lt {n k : Nat} (h : k < 8 * n) : (lateMarkerState n).word .car k = 0xFFFFFFFF#32 := by
  rw [word_lateMarker (by omega)]
  simp [lateMarker, h]

theorem word_lateMarker_ge {n k : Nat} (h : k < 8) :
    (lateMarkerState n).word .car (8 * n + k) = (lateMarker 0)[k]'(by simpa [lateMarker] using h) := by
  rw [word_lateMarker (by omega)]
  simp [lateMarker]

/-- Every byte before the marker is 0xFF. -/
theorem byte_lateMarker_lt {n j : Nat} (h : j < 3 * n) :
    streamBytes (pixelStream (lateMarkerState n)) j = 0xFF#8 := by
  refine byte_ext fun m hm => ?_
  rw [witness_BytesOfStream _ j m hm, pixelStream, word_lateMarker_lt (by omega)]
  have h1 : 8 * ((8 * j + m) % 3) ∈ [0, 8, 16] := by
    have : (8 * j + m) % 3 = 0 ∨ (8 * j + m) % 3 = 1 ∨ (8 * j + m) % 3 = 2 := by omega
    rcases this with e | e | e <;> simp [e]
  have h2 : ∀ i ∈ [0, 8, 16], ∀ m < 8, (0xFFFFFFFF#32).getLsbD i = (0xFF#8).getLsbD (7 - m) := by decide
  exact h2 _ h1 m hm

/-- The three bytes of the marker. -/
theorem byte_lateMarker_ge {n j : Nat} (h : j < 3) :
    streamBytes (pixelStream (lateMarkerState n)) (3 * n + j) = 0x23#8 := by
  refine byte_ext fun m hm => ?_
  have e1 : (8 * (3 * n + j) + m) / 3 = 8 * n + (8 * j + m) / 3 := by omega
  have e2 : (8 * (3 * n + j) + m) % 3 = (8 * j + m) % 3 := by omega
  rw [witness_BytesOfStream _ _ m hm, pixelStream, e1, e2, word_lateMarker_ge (by omega)]
  have key : ∀ j < 3, ∀ m < 8, ((lateMarker 0).getD ((8 * j + m) / 3) 0#32).getLsbD (8 * ((8 * j + m) % 3))
      = (0x23#8).getLsbD (7 - m) := by decide
  have := key j h m hm
  rwa [List.getD_eq_getElem _ _ (by simp [lateMarker]; omega)] at this

/-- With 1431655766 groups of 8 pixels before it, the first marker ends at a byte whose text does not fit 32 bits. -/
theorem witness_RevTIRecoversTextBeforeMarker_overflow : ∃ s j,
    Admits .revTI s ∧ j < 3 * s.desc.carW.toNat * s.desc.carH.toNat / 8 ∧
    MarkerEndsAt (streamBytes (pixelStream s)) j ∧ (∀ k, k < j → ¬ MarkerEndsAt (streamBytes (pixelStream s)) k) ∧
    2 ^ 32 ≤ j - 2 := by
  obtain ⟨n, hn⟩ : ∃ n, n = 1431655766 := ⟨_, rfl⟩
  have hw : (lateMarkerState n).desc.carW.toNat = 8 := rfl
  have hh : (lateMarkerState n).desc.carH.toNat = n + 1 := by
    show (BitVec.ofNat 32 (n + 1)).toNat = _
    rw [BitVec.toNat_ofNat]; omega
  refine ⟨lateMarkerState n, 3 * n + 2, ⟨rfl, rfl⟩, ?_, ?_, ?_, by omega⟩
  · rw [hw, hh]; omega
  · refine ⟨by omega, ?_, ?_, byte_lateMarker_ge (by omega)⟩
    · exact byte_lateMarker_ge (j := 0) (by omega)
    · exact byte_lateMarker_ge (j := 1) (by omega)
  · rintro k hk ⟨h2, h, _, _⟩
    rw [byte_lateMarker_lt (by omega)] at h
    exact absurd h (by decide)

theorem witness_LsbSubstitutionLaws : (8 ∈ [0, 8, 16]) ∧ (16 ∈ [0, 8, 16]) ∧ (8 : Nat) ≠ 16 := by decide

theorem witness_LsbSubstitutionMovesValueByAtMostOne : (2 < 3) ∧ (3 < 4) ∧ (3 ≠ 2) := by decide

/-- V1: the stream of "hi", its last bit, and its bytes. -/
theorem witness_TextBitsGroupBack :
    15 < 8 * [0x68#8, 0x69#8].length ∧ 1 < (textbits [0x68#8, 0x69#8]).length / 8 ∧ (7 : Nat) < 8 := by decide

theorem witness_SampleBitsRoundTrip : 1 < [0x8001#16, 0x1234#16].length ∧ 15 < 16 := by decide

/-- A stream that ends inside the last pixel, and the first bit it does not reach; a stream of full length. -/
theorem witness_EmbeddedStreamIsReadBack :
    [true, false].length ≤ 3 * [0xFFFFFFFF#32].length ∧ 0 < [0xFFFFFFFF#32].length ∧
    ¬ ((16 = 0 ∨ 16 = 8 ∨ 16 = 16) ∧ 3 * 0 + 16 / 8 < [true, false].length) ∧
    [true].length ≤ [0xFFFF#32, 0#32].length ∧ 1 < [0xFFFF#32, 0#32].length ∧
    ¬ (0 = 0 ∧ 1 < [true].length) := by decide

/-- Bit 8 of pixel 0 of V6, bit 8 of pixel 0 of V3 (c), bit 0 of sample 1 of V7 (e), bit 0 of sample 0 of V8 (a). -/
theorem witness_EmbedIsNonDestructive :
    (after 1 (exec .embII embIIState) = some (4#32, 0#32, [0x0D0D0A0B#32]) ∧
      (0x0D0D0A0B#32).getLsbD 8 ≠ (embIIState.word .car 0).getLsbD 8) ∧
    (after 1 (exec .embTI embTIState) = some (4#32, 0#32, [0x00000100#32]) ∧
      (0x00000100#32).getLsbD 8 ≠ (embTIState.word .car 0).getLsbD 8) ∧
    (after 2 (exec .embAA embAAState) = some (4#32, 16#32, [0xABCD0001#32, 0xABCDFFFE#32]) ∧
      (0xABCDFFFE#32).getLsbD 0 ≠ (embAAState.word .car 1).getLsbD 0) ∧
    (after 1 (exec .embTA embTAState) = some (4#32, 18#32, [0x7FFE#32]) ∧
      (0x7FFE#32).getLsbD 0 ≠ (embTAState.word .car 0).getLsbD 0) := by decide

theorem witness_ImageInImageRoundTrip : Admits .embII embIIState := by decide

/-- "hi###" into 14 pixels, 42 bits for 40. -/
def hiState : State :=
  loaded { imageDesc 14#32 1#32 0#32 0#32 with payLen := 5#32 } [] [0x68#32, 0x69#32, 0x23#32, 0x23#32, 0x23#32]

theorem witness_TextInImageRoundTrip :
    Admits .embTI hiState ∧ payText hiState = [0x68#8, 0x69#8] ++ [0x23#8, 0x23#8, 0x23#8] ∧
    ∀ j, j < [0x68#8, 0x69#8].length → ¬ ((payText hiState)[j]? = some 0x23#8 ∧
      (payText hiState)[j + 1]? = some 0x23#8 ∧ (payText hiState)[j + 2]? = some 0x23#8) := by decide

theorem witness_AudioInAudioRoundTrip : Admits .embAA embAAState := by decide

theorem witness_TextInAudioRoundTrip :
    Admits .embTA embTAState ∧ ∀ k, k < embTAState.desc.payLen.toNat → chr (embTAState.word .pay k) ≠ 0#8 := by
  decide

theorem witness_CommandsNeverWriteTheirInputs : ∃ t, exec .revAA revAAState = .next t := ⟨_, rfl⟩

/-- Two states that differ in what EMB_II does not read: CAR_LEN, the parameters, OUT, the earlier results. -/
theorem witness_CommandDependsOnlyOnItsInputs :
    SameInputs .embII embIIState
      { embIIState with desc := { embIIState.desc with carLen := 77#32 }, out := cells [1#32], cmd := 5#32,
                        res := ⟨1#32, 2#32, 3#32, .zero⟩ } ∧
    ∃ t, exec .embII embIIState = .next t :=
  ⟨⟨rfl, rfl, rfl, rfl, rfl, fun _ _ => rfl, fun _ _ => rfl⟩, _, rfl⟩

theorem witness_RunStateTransitions : ∃ t, step (busyWith 9#32 []) = .next t ∧ t.run = .halted := ⟨_, rfl, rfl⟩

/-- A host write that changes the descriptor, and one that changes a word of CAR. -/
theorem witness_InputsChangeOnlyByTheHost :
    (∃ t, step (idleWith (.writeReg 7 3#32)) = .next t ∧ t.desc ≠ (idleWith (.writeReg 7 3#32)).desc) ∧
    (∃ t, step (idleWith (.writeMem .car 2 9#32)) = .next t ∧
      t.word .car 2 ≠ (idleWith (.writeMem .car 2 9#32)).word .car 2) :=
  ⟨⟨_, rfl, by decide⟩, ⟨_, rfl, by decide⟩⟩

/-- The invariant is met by a state with words in memory and a flag set. -/
theorem witness_EveryStepKeepsTheInvariant :
    Inv (idleWith (.writeReg 0 1#32)) ∧ ∃ t, step (idleWith (.writeReg 0 1#32)) = .next t := by
  refine ⟨⟨⟨by decide, by decide, by decide, by decide, by decide⟩, ⟨?_, ?_⟩⟩, _, rfl⟩
  · intro m; cases m <;> decide
  · intro m; cases m <;> decide

theorem witness_CommandLineCompletesAndReadsStatus : embIIState.run = .idle := rfl

theorem witness_MoveCarriesOutIntoCar :
    (idleWith .reset).run = .idle ∧ ¬ Beyond 6 (idleWith .reset).cfg.outDepth ∧
    ¬ Beyond 6 (idleWith .reset).cfg.carDepth := by
  simp only [beyond_iff]; decide

theorem witness_PixelAndSampleWords : (-32768 : Int) ≤ -32768 ∧ (-32768 : Int) ≤ 32767 ∧ (32767 : Int) ≤ 32767 := by
  decide

end Sys2Proof.Tests
end

namespace Sys2Proof.Machine

/-! ## PROOFS of the family 10_state.md

### The state after reset (10_state.md R27) -/

/-- A memory not written since reset reads as the free values of its epoch. -/
theorem word_of_unwritten {s : State} {m : Buffer} (h : s.mem m = .unwritten) (i : Nat) :
    s.word m i = Config.powerOnWord s.epoch m i := by
  simp only [State.word, h, unwritten_get?, Option.getD_none]

@[simp] theorem mem_reset (m : Buffer) : State.reset.mem m = .unwritten := by cases m <;> rfl

@[simp] theorem reg_reset (r : Reg) : State.reset.reg r = 0#32 := by
  cases r
  case status => decide
  all_goals rfl

/-- A register number reads 0 when every register does: a reserved number reads 0 anyway. -/
theorem regValue_eq_zero {s : State} (h : ∀ r, s.reg r = 0#32) (n : Fin 32) : regValue n s = 0#32 := by
  unfold regValue
  split
  · exact h _
  · rfl

/-- Settles O17: no register holds anything and no memory word is listed in `State.reset`. -/
theorem resetStateValues : Obligations.ResetStateValues :=
  ⟨rfl, regValue_eq_zero reg_reset, fun m => word_of_unwritten (mem_reset m)⟩

/-! ### The operands of two states that agree on them -/

section

variable {i : Instr} {s t : State}

theorem carPixels_congr (hw : s.desc.carW = t.desc.carW) (hh : s.desc.carH = t.desc.carH) :
    carPixels s = carPixels t := by
  rw [carPixels, carPixels, hw, hh]

theorem payPixels_congr (hw : s.desc.payW = t.desc.payW) (hh : s.desc.payH = t.desc.payH) :
    payPixels s = payPixels t := by
  rw [payPixels, payPixels, hw, hh]

theorem coverPixels_congr (hw : s.desc.carW = t.desc.carW) (hh : s.desc.carH = t.desc.carH)
    (hcar : ∀ k < carPixels s, s.word .car k = t.word .car k) : coverPixels s = coverPixels t := by
  rw [coverPixels, coverPixels, ← carPixels_congr hw hh, words_congr hcar]

theorem coverSamples_congr (hlen : s.desc.carLen = t.desc.carLen)
    (hcar : ∀ k < s.desc.carLen.toNat, s.word .car k = t.word .car k) : coverSamples s = coverSamples t := by
  rw [coverSamples, coverSamples, ← hlen, words_congr hcar]

theorem payText_congr (hlen : s.desc.payLen = t.desc.payLen)
    (hpay : ∀ k < s.desc.payLen.toNat, s.word .pay k = t.word .pay k) : payText s = payText t := by
  rw [payText, payText, ← hlen, words_congr hpay]

theorem paySamples_congr (hlen : s.desc.payLen = t.desc.payLen)
    (hpay : ∀ k < s.desc.payLen.toNat, s.word .pay k = t.word .pay k) : paySamples s = paySamples t := by
  rw [paySamples, paySamples, ← hlen, words_congr hpay]

theorem revTALength_congr (h : revTABytes s = revTABytes t) : revTALength s = revTALength t := by
  rw [revTALength, revTALength, h]

theorem revTILength_congr (h : revTIBytes s = revTIBytes t) : revTILength s = revTILength t := by
  rw [revTILength, revTILength, h]

/-- A unit at column `x`, row `y` of a grid lies among its units (20_memory.md R33). -/
theorem raster_index_lt {w h x y : Nat} (hx : x < w) (hy : y < h) : y * w + x < w * h :=
  calc y * w + x < y * w + w := by omega
    _ = w * (y + 1) := by ring
    _ ≤ w * h := Nat.mul_le_mul_left w hy

/-! ### The conditions and the result are functions of the inputs (30_encoding.md R47) -/

namespace SameInputs

theorem capacityError_eq (h : SameInputs i s t) : capacityError i s = capacityError i t := by
  cases i
  case embII =>
    obtain ⟨-, hcw, hch, hpw, hph, -⟩ := h
    simp only [capacityError, hcw, hch, hpw, hph]
  case embTI =>
    obtain ⟨-, hcw, hch, hlen, -⟩ := h
    simp only [capacityError, carPixels_congr hcw hch, hlen]
  case embAA | embTA =>
    obtain ⟨-, hcl, hpl, -⟩ := h
    simp only [capacityError, hcl, hpl]
  all_goals rfl

theorem rangeError_eq (h : SameInputs i s t) : rangeError i s = rangeError i t := by
  cases i
  case embII | revII =>
    obtain ⟨hcfg, hcw, hch, hpw, hph, -⟩ := h
    simp only [rangeError, carPixels_congr hcw hch, payPixels_congr hpw hph, hcfg, hcw, hch, hpw, hph]
  case embTI =>
    obtain ⟨hcfg, hcw, hch, hlen, -⟩ := h
    simp only [rangeError, carPixels_congr hcw hch, hcfg, hlen]
  case revTI =>
    obtain ⟨hcfg, hcw, hch, -⟩ := h
    simp only [rangeError, carPixels_congr hcw hch, hcfg]
  case embAA | embTA | revAA =>
    obtain ⟨hcfg, hcl, hpl, -⟩ := h
    simp only [rangeError, hcfg, hcl, hpl]
  case revTA =>
    obtain ⟨hcfg, hcl, -⟩ := h
    simp only [rangeError, hcfg, hcl]
  case quit => rfl

theorem embIIResult_eq (h : SameInputs .embII s t) : embIIResult s = embIIResult t := by
  obtain ⟨-, hcw, hch, hpw, hph, hcar, hpay⟩ := h
  have hwords : (embIIResult s).words = (embIIResult t).words := by
    simp only [embIIResult, ← hcw, ← hch, ← hpw, ← hph]
    refine raster_congr fun x y hx hy => ?_
    rw [hcar _ (raster_index_lt hx hy)]
    split
    next hin => rw [hpay _ (raster_index_lt hin.1 hin.2)]
    next => rfl
  exact congrArg₂ (Result.mk · · false) hwords (by simp only [hcw, hch])

theorem revIIResult_eq (h : SameInputs .revII s t) : revIIResult s = revIIResult t := by
  obtain ⟨-, hcw, -, hpw, hph, hcar⟩ := h
  simp only [revIIResult, ← hcw, ← hpw, ← hph]
  congr 1
  exact raster_congr fun x y hx hy => congrArg revIIPixel (hcar x y hx hy)

theorem embTIResult_eq (h : SameInputs .embTI s t) : embTIResult s = embTIResult t := by
  obtain ⟨-, hcw, hch, hlen, hcar, hpay⟩ := h
  simp only [embTIResult, coverPixels_congr hcw hch hcar, payText_congr hlen hpay, hcw, hch]

theorem revTIBytes_eq (h : SameInputs .revTI s t) : revTIBytes s = revTIBytes t := by
  obtain ⟨-, hcw, hch, hcar⟩ := h
  rw [revTIBytes, revTIBytes, coverPixels_congr hcw hch hcar]

theorem revTIResult_eq (h : SameInputs .revTI s t) : revTIResult s = revTIResult t := by
  simp only [revTIResult, h.revTIBytes_eq, revTILength_congr h.revTIBytes_eq]

theorem embAAResult_eq (h : SameInputs .embAA s t) : embAAResult s = embAAResult t := by
  obtain ⟨-, hcl, hpl, hpar, hcar, hpay⟩ := h
  simp only [embAAResult, coverSamples_congr hcl hcar, paySamples_congr hpl hpay, hcl, hpar]

/-- REV_AA reads only the first `16 * PAY_LEN` samples, and its range condition says that the carrier has them. -/
theorem revAAResult_eq (h : SameInputs .revAA s t) (hr : rangeError .revAA s = false) :
    revAAResult s = revAAResult t := by
  obtain ⟨-, hcl, hpl, hfr, hco, hcar⟩ := h
  have hlen : 16 * s.desc.payLen.toNat ≤ s.desc.carLen.toNat := by
    simp only [rangeError, Bool.or_eq_false_iff, decide_eq_false_iff_not] at hr
    omega
  have hbits : ∀ k < 16 * s.desc.payLen.toNat,
      (samplelsbs (coverSamples s))[k]? = (samplelsbs (coverSamples t))[k]? := fun k hk => by
    rw [getElem?_coverSamples_lsb (by omega), getElem?_coverSamples_lsb (by rw [← hcl]; omega), hcar k hk]
  simp only [revAAResult, revAAParams, ← hpl, ← hfr, ← hco, samplesof_congr hbits]

theorem embTAResult_eq (h : SameInputs .embTA s t) : embTAResult s = embTAResult t := by
  obtain ⟨-, hcl, hpl, hpar, hcar, hpay⟩ := h
  simp only [embTAResult, coverSamples_congr hcl hcar, payText_congr hpl hpay, hcl, hpar]

theorem revTAResult_eq (h : SameInputs .revTA s t) : revTAResult s = revTAResult t := by
  obtain ⟨-, hcl, hcar⟩ := h
  have hbytes : revTABytes s = revTABytes t := by
    rw [revTABytes, revTABytes, coverSamples_congr hcl hcar]
  simp only [revTAResult, hbytes, revTALength_congr hbytes]

/-- QUIT has no result; the other eight give the same one. -/
theorem resultOf_eq (h : SameInputs i s t) (hq : i ≠ .quit) (ha : Admits i s) : resultOf i s = resultOf i t := by
  cases i
  case embII => exact h.embIIResult_eq
  case revII => exact h.revIIResult_eq
  case embTI => exact h.embTIResult_eq
  case revTI => exact h.revTIResult_eq
  case embAA => exact h.embAAResult_eq
  case revAA => exact h.revAAResult_eq ha.2
  case embTA => exact h.embTAResult_eq
  case revTA => exact h.revTAResult_eq
  case quit => exact absurd rfl hq

end SameInputs

/-! ### The same effect (10_state.md R8) -/

/-- A command one of whose conditions holds takes the exception (60_exceptions.md R96). -/
theorem exec_raises (hq : i ≠ .quit) (h : capacityError i s = true ∨ rangeError i s = true) :
    exec i s = .next (takeException (capacityError i s) (rangeError i s) false s) := by
  rcases exec_cases i s with ⟨rfl, hr, -⟩ | ⟨-, -, he⟩ | ⟨-, ⟨hc, hr⟩, -⟩ | ⟨rfl, -⟩
  · simp [hr, capacityError] at h
  · exact he
  · simp [hc, hr] at h
  · exact absurd rfl hq

theorem sameEffect_takeException (cap rng cmd : Bool) :
    SameEffect s (takeException cap rng cmd s) t (takeException cap rng cmd t) :=
  ⟨rfl, rfl, .inl ⟨rfl, rfl, rfl, rfl⟩⟩

theorem sameEffect_halt : SameEffect s (halt s) t (halt t) := ⟨rfl, rfl, .inl ⟨rfl, rfl, rfl, rfl⟩⟩

/-- Committing one result writes the same extent, whatever OUT held before. -/
theorem sameEffect_commit (r : Result) : SameEffect s (commit r s) t (commit r t) := by
  refine ⟨rfl, rfl, .inr ⟨rfl, r.words.length, fun k hk => ?_, fun k hk => ⟨?_, ?_⟩⟩⟩
  · rw [word_commit_out_lt s r k hk, word_commit_out_lt t r k hk]
  · exact word_commit_out_ge s r k hk
  · exact word_commit_out_ge t r k hk

end

/-- Settles O44: equal inputs decide the same of exception, result and halt, with the same error bits and the same
result. -/
theorem commandDependsOnlyOnItsInputs : Obligations.CommandDependsOnlyOnItsInputs := by
  intro i s t s' h hs
  have hc := h.capacityError_eq
  have hr := h.rangeError_eq
  rcases exec_next_cases hs with ⟨hq, hraise, rfl⟩ | ⟨hq, ha, hlen, rfl⟩ | ⟨rfl, rfl⟩
  · rw [hc, hr] at hraise ⊢
    exact ⟨_, exec_raises hq hraise, sameEffect_takeException ..⟩
  · have ht : exec i t = .next (commit (resultOf i t) t) := by
      refine exec_admits hq ⟨hc ▸ ha.1, hr ▸ ha.2⟩ ?_
      rintro rfl
      exact revTILength_congr h.revTIBytes_eq ▸ hlen rfl
    exact ⟨_, ht, h.resultOf_eq hq ha ▸ sameEffect_commit _⟩
  · exact ⟨_, rfl, sameEffect_halt⟩

end Sys2Proof.Machine

namespace Sys2Proof.Machine

/-! ## PROOFS of the family 20_memory.md

### While BUSY the engine owns everything (20_memory.md R42) -/

/-- A memory read in BUSY answers some word, the next free value below the depth (45_control.md R88; log 5). -/
theorem readMem_busy_answers {s : State} (hb : s.run = .busy) (m : Buffer) (k : Nat) :
    ∃ w d, readMem m k s = { s with reply := some w, draws := d } ∧
      (Below k (depthOf s.cfg m) → w = Config.busyReadWord s.draws) := by
  cases hk : inDepth k (depthOf s.cfg m) with
  | true => exact ⟨_, _, readMem_busy hb hk, fun _ => rfl⟩
  | false =>
    refine ⟨_, _, readMem_beyond hk, fun hbelow => ?_⟩
    rw [below_iff, hk] at hbelow
    cases hbelow

@[simp] theorem regValue_status (s : State) : regValue 1 s = statusWord s.run s.status := rfl

/-- Settles O15: an engine that is not IDLE ignores every write, and reads only answer. -/
theorem busyEngineOwnsEverything : Obligations.BusyEngineOwnsEverything := by
  intro s op hb hop
  refine ⟨access_not_idle (by simp [hb]) hop, ?_, ?_, ?_⟩
  · rintro m k rfl
    exact readMem_busy_answers hb m k
  · rintro n rfl
    rfl
  · rw [regValue_status, getLsbD_statusWord, hb]
    rfl

/-! ### A command run again on what it left (20_memory.md R40) -/

section

variable {i : Instr} {s t : State}

/-- States with equal depths, descriptor and words of CAR and PAY give every command the same inputs. -/
theorem sameInputs_of_frame (hcfg : s.cfg = t.cfg) (hdesc : s.desc = t.desc)
    (hcar : ∀ k, s.word .car k = t.word .car k) (hpay : ∀ k, s.word .pay k = t.word .pay k) :
    SameInputs i s t := by
  cases i <;> simp [SameInputs, hcfg, hdesc, hcar, hpay]

/-- No command writes its own inputs. -/
theorem sameInputs_of_exec (h : exec i s = .next t) : SameInputs i s t := by
  rcases exec_next_cases h with ⟨-, -, rfl⟩ | ⟨-, -, -, rfl⟩ | ⟨rfl, -⟩
  · exact sameInputs_of_frame rfl rfl (fun _ => rfl) (fun _ => rfl)
  · exact sameInputs_of_frame rfl rfl (fun _ => rfl) (fun _ => rfl)
  · trivial

theorem commit_commit (r : Result) (s : State) : commit r (commit r s) = commit r s := by
  simp only [commit, setPrefix_setPrefix]

/-- On the same inputs a command takes the same exception. -/
theorem SameInputs.exec_raises (h : SameInputs i s t) (hq : i ≠ .quit)
    (hraise : capacityError i s = true ∨ rangeError i s = true) :
    exec i t = .next (takeException (capacityError i s) (rangeError i s) false t) := by
  rw [h.capacityError_eq, h.rangeError_eq] at hraise ⊢
  exact Machine.exec_raises hq hraise

/-- On the same inputs a command commits the same result. -/
theorem SameInputs.exec_commits (h : SameInputs i s t) (hq : i ≠ .quit) (ha : Admits i s)
    (hlen : i = .revTI → revTILength s < 2 ^ 32) : exec i t = .next (commit (resultOf i s) t) := by
  rw [h.resultOf_eq hq ha]
  refine exec_admits hq ⟨h.capacityError_eq ▸ ha.1, h.rangeError_eq ▸ ha.2⟩ ?_
  rintro rfl
  exact revTILength_congr h.revTIBytes_eq ▸ hlen rfl

/-- A command leaves its inputs, so it decides the same again, and each of its three endings absorbs itself. -/
theorem exec_idempotent (h : exec i s = .next t) : exec i t = .next t := by
  have hin := sameInputs_of_exec h
  rcases exec_next_cases h with ⟨hq, hraise, rfl⟩ | ⟨hq, ha, hlen, rfl⟩ | ⟨rfl, rfl⟩
  · exact hin.exec_raises hq hraise
  · rw [hin.exec_commits hq ha hlen, commit_commit]
  · rfl

end

/-- Settles O16: a read only answers, and a completed command is idempotent. -/
theorem readsAndRepeatedCommandsChangeNothing : Obligations.ReadsAndRepeatedCommandsChangeNothing :=
  ⟨fun _ _ => ⟨_, rfl⟩, fun s m k => readMem_respond m k s, fun _ _ _ => exec_idempotent⟩

end Sys2Proof.Machine

namespace Sys2Proof.Machine

/-! ## PROOFS of the family 40_bitplane_primitive.md

### LSB substitution (40_bitplane_primitive.md R53) -/

section

variable {i k : Nat} (w : Word)

theorem getlsb_setlsb (hi : i < 32) (b : Bool) : getlsb (setlsb w i b) i = b := by
  rw [getlsb, getLsbD_setlsb w i b i hi, if_pos rfl]

/-- Writing the bit that is there changes nothing. -/
theorem setlsb_getLsbD (hi : i < 32) : setlsb w i (w.getLsbD i) = w := by
  refine BitVec.eq_of_getLsbD_eq fun j _ => ?_
  rw [getLsbD_setlsb w i _ j hi]
  split
  next hj => rw [hj]
  next => rfl

/-- The last of two substitutions at one position wins. -/
theorem setlsb_setlsb (hi : i < 32) (a b : Bool) : setlsb (setlsb w i a) i b = setlsb w i b := by
  refine BitVec.eq_of_getLsbD_eq fun j _ => ?_
  simp only [getLsbD_setlsb _ _ _ _ hi]
  split <;> rfl

/-- Substitutions at different positions commute. -/
theorem setlsb_comm (hi : i < 32) (hk : k < 32) (hne : i ≠ k) (a b : Bool) :
    setlsb (setlsb w i a) k b = setlsb (setlsb w k b) i a := by
  refine BitVec.eq_of_getLsbD_eq fun j _ => ?_
  simp only [getLsbD_setlsb _ _ _ _ hi, getLsbD_setlsb _ _ _ _ hk]
  split_ifs with hjk hji
  · exact absurd (hji.symm.trans hjk) hne
  all_goals rfl

end

/-- The LSBs of the channels R, G, B are bits of the word (40_bitplane_primitive.md R53). -/
theorem lt_of_mem_channelLsbs {i : Nat} (h : i ∈ [0, 8, 16]) : i < 32 := by
  simp only [List.mem_cons, List.not_mem_nil, or_false] at h
  omega

/-- Settles O33: each law is read off the bits of a substituted word. -/
theorem lsbSubstitutionLaws : Obligations.LsbSubstitutionLaws := by
  intro w i k a b hi hk
  have hi := lt_of_mem_channelLsbs hi
  have hk := lt_of_mem_channelLsbs hk
  exact ⟨fun j _ => getLsbD_setlsb w i b j hi, rfl, getlsb_setlsb w hi b, setlsb_getLsbD w hi,
    setlsb_setlsb w hi a b, fun hne => setlsb_comm w hi hk hne a b⟩

/-! ### The numeric effect of a substitution (40_bitplane_primitive.md R55) -/

section

variable {n : Nat} {u v : BitVec n}

/-- A pattern whose bits are `v`'s but for bit 0, which is `b`, is `v` with bit 0 cleared and `b` ORed in. -/
theorem eq_clear_or_of_bits {b : Bool} (hn : 0 < n) (h : ∀ j, u.getLsbD j = if j = 0 then b else v.getLsbD j) :
    u = (v &&& ~~~1#n) ||| (BitVec.ofBool b).setWidth n := by
  refine BitVec.eq_of_getLsbD_eq fun j hj => ?_
  rw [h, BitVec.getLsbD_or, BitVec.getLsbD_and, BitVec.getLsbD_not, BitVec.getLsbD_one, BitVec.getLsbD_setWidth,
    BitVec.getLsbD_ofBool]
  by_cases h0 : j = 0
  · simp [h0, hn]
  · simp [h0, hj]

/-- Patterns that agree above bit 0 have the same half. -/
theorem toNat_div_two_eq (h : ∀ j, j ≠ 0 → u.getLsbD j = v.getLsbD j) : u.toNat / 2 = v.toNat / 2 := by
  refine Nat.eq_of_testBit_eq fun j => ?_
  rw [Nat.testBit_div_two, Nat.testBit_div_two]
  exact h (j + 1) (by omega)

/-- Bit 0 is the parity. -/
theorem toNat_mod_two (v : BitVec n) : v.toNat % 2 = if v.getLsbD 0 then 1 else 0 := by
  have h : v.getLsbD 0 = decide (v.toNat % 2 = 1) := Nat.testBit_zero v.toNat
  rw [h]
  rcases Nat.mod_two_eq_zero_or_one v.toNat with hv | hv <;> simp [hv]

/-- Replacing bit 0 takes the old bit off the value and adds the new one: no carry. -/
theorem toNat_of_bits {b : Bool} (h : ∀ j, u.getLsbD j = if j = 0 then b else v.getLsbD j) :
    (u.toNat : Int) = v.toNat - (if v.getLsbD 0 then 1 else 0) + (if b then 1 else 0) := by
  have hdiv : u.toNat / 2 = v.toNat / 2 := toNat_div_two_eq fun j hj => by rw [h j, if_neg hj]
  have hu : u.toNat % 2 = if b then 1 else 0 := by rw [toNat_mod_two, h 0, if_pos rfl]
  have hv := toNat_mod_two v
  split_ifs at hu hv ⊢ <;> omega

end

/-- A sample pattern and its half have one sign, so the two's complement value moves as the pattern does. -/
theorem signed16_sub_toNat {p q : Half} (h : p.toNat / 2 = q.toNat / 2) :
    signed16 p - p.toNat = signed16 q - q.toNat := by
  unfold signed16
  split_ifs <;> omega

/-- The range of a signed sample (10_state.md R25). -/
theorem signed16_bounds (p : Half) : -32768 ≤ signed16 p ∧ signed16 p ≤ 32767 := by
  have := p.isLt
  unfold signed16
  split_ifs <;> omega

/-- The substituted channel: bit 0 is the payload bit, the other bits are the channel's. -/
theorem getLsbD_chan_setlsb (w : Word) {c : Nat} (hc : c < 4) (b : Bool) (j : Nat) :
    (chan (setlsb w (8 * c) b) c).getLsbD j = if j = 0 then b else (chan w c).getLsbD j := by
  rw [getLsbD_chan, getLsbD_chan, getLsbD_setlsb w _ b _ (by omega)]
  by_cases hj : j = 0
  · simp [hj]
  · simp [hj]

/-- A substitution in one channel leaves the other channels. -/
theorem chan_setlsb_of_ne (w : Word) {c d : Nat} (hc : c < 4) (hne : d ≠ c) (b : Bool) :
    chan (setlsb w (8 * c) b) d = chan w d := by
  refine BitVec.eq_of_getLsbD_eq fun j hj => ?_
  rw [getLsbD_chan, getLsbD_chan, getLsbD_setlsb w _ b _ (by omega), if_neg (by omega)]

/-- The substituted sample: bit 0 is the payload bit, the other bits are the sample's. -/
theorem getLsbD_samp_setlsb (w : Word) (b : Bool) (j : Nat) :
    (samp (setlsb w 0 b)).getLsbD j = if j = 0 then b else (samp w).getLsbD j := by
  rw [getLsbD_samp, getLsbD_samp, getLsbD_setlsb w 0 b j (by omega)]
  by_cases hj : j = 0
  · simp [hj]
  · simp [hj]

/-- The signed value of a substituted sample: no wrap at either end of the range. -/
theorem signed16_samp_setlsb (w : Word) (b : Bool) :
    signed16 (samp (setlsb w 0 b)) = signed16 (samp w) - (if w.getLsbD 0 then 1 else 0) + (if b then 1 else 0) := by
  have hbits := getLsbD_samp_setlsb w b
  have hhalf : (samp (setlsb w 0 b)).toNat / 2 = (samp w).toNat / 2 :=
    toNat_div_two_eq fun j hj => by rw [hbits j, if_neg hj]
  have hsign := signed16_sub_toNat hhalf
  have hval := toNat_of_bits hbits
  have hlsb : (samp w).getLsbD 0 = w.getLsbD 0 := getLsbD_samp w 0
  rw [hlsb] at hval
  linarith

/-- A substitution in the sample leaves the word's upper half (10_state.md R25). -/
theorem upperHalf_setlsb (w : Word) (b : Bool) : (setlsb w 0 b).extractLsb' 16 16 = w.extractLsb' 16 16 := by
  refine BitVec.eq_of_getLsbD_eq fun j _ => ?_
  rw [BitVec.getLsbD_extractLsb', BitVec.getLsbD_extractLsb', getLsbD_setlsb w 0 b _ (by omega), if_neg (by omega)]

/-- Settles O34: a substitution replaces bit 0 of a channel or a sample, and bit 0 is worth 1. -/
theorem lsbSubstitutionMovesValueByAtMostOne : Obligations.LsbSubstitutionMovesValueByAtMostOne := by
  refine ⟨fun w c b hc => ?_, fun w b => ?_⟩
  · have hbits := getLsbD_chan_setlsb w (by omega : c < 4) b
    exact ⟨eq_clear_or_of_bits (by decide) hbits, toNat_of_bits hbits,
      fun d _ hne => chan_setlsb_of_ne w (by omega) hne b⟩
  · obtain ⟨hlow, hhigh⟩ := signed16_bounds (samp (setlsb w 0 b))
    exact ⟨eq_clear_or_of_bits (by decide) (getLsbD_samp_setlsb w b), signed16_samp_setlsb w b, hlow, hhigh,
      upperHalf_setlsb w b⟩

/-! ### The bits of a text and of a sample sequence, and back (40_bitplane_primitive.md R58 to R60) -/

/-- A bit inside the first of two sequences. -/
theorem getD_append_of_getElem? {l r : List Bool} {k : Nat} {a : Bool} (h : l[k]? = some a) :
    (l ++ r).getD k false = a :=
  getD_of_getElem? ((List.getElem?_append_left (List.getElem?_eq_some_iff.1 h).1).trans h) false

/-- Byte `j` takes the eight bits from `8 * j` on, most significant first (40_bitplane_primitive.md R59). -/
theorem getLsbD_bytesof (s : List Bool) {j m : Nat} (hj : j < s.length / 8) (hm : m < 8) :
    ((bytesof s).getD j 0#8).getLsbD (7 - m) = s.getD (8 * j + m) false := by
  rw [getD_of_getElem? (getElem?_bytesof s j hj), getLsbD_orBits, show 7 - (7 - m) = m by omega]
  simp [show 7 - m < 8 by omega]

/-- Byte `j` of a stream that begins with a text's bits is the text's character `j`. -/
theorem getD_bytesof_textbits_append (t : List Byte) (r : List Bool) {j : Nat} (hj : j < t.length) :
    (bytesof (textbits t ++ r)).getD j 0#8 = t.getD j 0#8 := by
  refine byte_ext fun m hm => ?_
  have hbit := getElem?_textbits t (8 * j + m) (by omega)
  rw [show (8 * j + m) / 8 = j by omega, show (8 * j + m) % 8 = m by omega] at hbit
  rw [getLsbD_bytesof _ (by simp; omega) hm, getD_append_of_getElem? hbit]

/-- A text's bits group back to the text, whatever bits follow. -/
theorem take_bytesof_textbits_append (t : List Byte) (r : List Bool) :
    (bytesof (textbits t ++ r)).take t.length = t := by
  have hlen : t.length ≤ (bytesof (textbits t ++ r)).length := by simp; omega
  refine List.ext_getElem? fun j => ?_
  rw [List.getElem?_take]
  split
  next hj =>
    rw [getElem?_of_getD (by omega) 0#8, getElem?_of_getD hj 0#8, getD_bytesof_textbits_append t r hj]
  next hj => rw [List.getElem?_eq_none (by omega)]

theorem bytesof_textbits (t : List Byte) : bytesof (textbits t) = t := by
  have h := take_bytesof_textbits_append t []
  rwa [List.append_nil, List.take_of_length_le (by simp)] at h

/-- Settles O35: byte `j` of a grouped stream takes its bits `8 * j` to `8 * j + 7`, which are character `j`'s. -/
theorem textBitsGroupBack : Obligations.TextBitsGroupBack :=
  ⟨length_textbits, getElem?_textbits, length_bytesof, fun s _ _ => getLsbD_bytesof s,
    fun t r => ⟨bytesof_textbits t, take_bytesof_textbits_append t r⟩⟩

/-- Bit `b` of sample `i` stands at `16 * i + b` (40_bitplane_primitive.md R60). -/
theorem getElem?_samplebits_sample (p : List Half) {i b : Nat} (hi : i < p.length) (hb : b < 16) :
    (samplebits p)[16 * i + b]? = some ((p.getD i 0#16).getLsbD b) := by
  rw [getElem?_samplebits p _ (by omega), show (16 * i + b) / 16 = i by omega,
    show (16 * i + b) % 16 = b by omega]

/-- Sample `i` takes the sixteen bits from `16 * i` on, least significant first (40_bitplane_primitive.md R60). -/
theorem getLsbD_samplesof (s : List Bool) {n i b : Nat} (hi : i < n) (hb : b < 16) :
    ((samplesof s n).getD i 0#16).getLsbD b = s.getD (16 * i + b) false := by
  rw [getD_of_getElem? (getElem?_samplesof s n i hi), getLsbD_orBits, decide_eq_true hb, Bool.true_and]

/-- Samples are given back by their bits, whatever bits follow. -/
theorem samplesof_samplebits_append (p : List Half) (r : List Bool) :
    samplesof (samplebits p ++ r) p.length = p := by
  refine List.ext_getElem? fun i => ?_
  by_cases hi : i < p.length
  · rw [getElem?_of_getD (by simpa using hi) 0#16, getElem?_of_getD hi 0#16]
    refine congrArg some (BitVec.eq_of_getLsbD_eq fun b hb => ?_)
    rw [getLsbD_samplesof _ hi hb, getD_append_of_getElem? (getElem?_samplebits_sample p hi hb)]
  · rw [List.getElem?_eq_none (by simp; omega), List.getElem?_eq_none (by omega)]

/-- Settles O36: sample `i` of a stream takes its bits `16 * i` to `16 * i + 15`, where `samplebits` puts them. -/
theorem sampleBitsRoundTrip : Obligations.SampleBitsRoundTrip :=
  ⟨length_samplebits, fun p _ _ => getElem?_samplebits_sample p,
    fun s n _ _ _ hi hb => ⟨length_samplesof s n, getLsbD_samplesof s hi hb⟩, samplesof_samplebits_append⟩

/-! ### What a successful command writes (40_bitplane_primitive.md R64, R65) -/

section

variable {i : Instr} {s t : State}

/-- A codec command that ends without error committed its result. -/
theorem exec_success (hq : i ≠ .quit) (h : exec i s = .next t) (hcap : t.status.errCap = false)
    (hrng : t.status.errRange = false) :
    Admits i s ∧ (i = .revTI → revTILength s < 2 ^ 32) ∧ t = commit (resultOf i s) s := by
  rcases exec_next_cases h with ⟨-, hraise, rfl⟩ | ⟨-, ha, hlen, rfl⟩ | ⟨rfl, -⟩
  · simp only [takeException_status, exceptionFlags] at hcap hrng
    simp [hcap, hrng] at hraise
  · exact ⟨ha, hlen, rfl⟩
  · exact absurd rfl hq

/-- The extent that the result registers give: `OUT_W * OUT_H` for an image, `OUT_LEN` for samples and text
(40_bitplane_primitive.md R65). -/
def extentOf (i : Instr) (r : ResultRegs) : Nat :=
  if i ∈ [Instr.embII, .revII, .embTI] then r.outW.toNat * r.outH.toNat else r.outLen.toNat

/-- The result registers give the number of words written; a recovered length must fit OUT_LEN for that. -/
theorem extentOf_resultOf (hq : i ≠ .quit) (hlen : i = .revTI → revTILength s < 2 ^ 32) :
    extentOf i (resultOf i s).regs = (resultOf i s).words.length := by
  rw [length_resultOf]
  cases i
  case quit => exact absurd rfl hq
  case revTI => exact Nat.mod_eq_of_lt (hlen rfl)
  case revTA =>
    refine Nat.mod_eq_of_lt ?_
    have hle := revTALength_le s
    have hcar := s.desc.carLen.isLt
    omega
  all_goals rfl

end

/-- Settles O24: `commit` writes the words of the result, and the result registers give their number. -/
theorem resultExtentIsExactlyWhatIsWritten : Obligations.ResultExtentIsExactlyWhatIsWritten := by
  intro i s t n k hq he hcap hrng hn
  obtain ⟨-, hlen, rfl⟩ := exec_success hq he hcap hrng
  have hn : n = (resultOf i s).words.length := hn.trans (extentOf_resultOf hq hlen)
  rw [commit_out, get?_setPrefix, ← hn]
  constructor
  · intro hk
    rw [if_pos hk, List.getElem?_eq_getElem (hn ▸ hk)]
    rfl
  · intro hk
    rw [if_neg (by omega)]

/-! ### An embed changes payload positions only (40_bitplane_primitive.md R66) -/

/-- The positions of OUT that carry payload after an embed: unit `k`, bit `b` (40_bitplane_primitive.md R66). -/
def PayloadPosition (i : Instr) (s : State) (k b : Nat) : Prop :=
  match i with
  | .embII => (b = 0 ∨ b = 8 ∨ b = 16) ∧ k % s.desc.carW.toNat < s.desc.payW.toNat ∧
      k / s.desc.carW.toNat < s.desc.payH.toNat
  | .embTI => (b = 0 ∨ b = 8 ∨ b = 16) ∧ 3 * k + b / 8 < 8 * s.desc.payLen.toNat
  | .embAA => b = 0 ∧ k < 16 * s.desc.payLen.toNat
  | .embTA => b = 0 ∧ k < 8 * (s.desc.payLen.toNat + 1)
  | .revII | .revTI | .revAA | .revTA | .quit => False

section

variable {s : State} {k b : Nat}

/-- Unit `k` of an EMB_II result, at column `k % CAR_W` and row `k / CAR_W` (20_memory.md R33). -/
theorem getD_embIIResult (hk : k < carPixels s) :
    (resultOf .embII s).words.getD k 0#32
      = if k % s.desc.carW.toNat < s.desc.payW.toNat ∧ k / s.desc.carW.toNat < s.desc.payH.toNat then
          embIIPixel (s.word .car k)
            (s.word .pay (k / s.desc.carW.toNat * s.desc.payW.toNat + k % s.desc.carW.toNat))
        else s.word .car k := by
  have hw : 0 < s.desc.carW.toNat := Nat.pos_of_mul_pos_right (Nat.zero_lt_of_lt hk)
  have h := getElem?_embIIResult (Nat.mod_lt k hw) (Nat.div_lt_of_lt_mul hk)
  rw [Nat.div_add_mod'] at h
  exact getD_of_getElem? h _

theorem embIIResult_keeps (hk : k < carPixels s) (h : ¬ PayloadPosition .embII s k b) :
    ((resultOf .embII s).words.getD k 0#32).getLsbD b = (s.word .car k).getLsbD b := by
  rw [getD_embIIResult hk]
  split
  next hin => rw [getLsbD_embIIPixel, if_neg fun hb => h ⟨hb, hin⟩]
  next => rfl

theorem embTIResult_keeps (hk : k < carPixels s) (h : ¬ PayloadPosition .embTI s k b) :
    ((resultOf .embTI s).words.getD k 0#32).getLsbD b = (s.word .car k).getLsbD b :=
  (getLsbD_embTIResult hk b).trans (if_neg h)

theorem embAAResult_keeps (hk : k < s.desc.carLen.toNat) (h : ¬ PayloadPosition .embAA s k b) :
    ((resultOf .embAA s).words.getD k 0#32).getLsbD b = (s.word .car k).getLsbD b :=
  (getLsbD_embAAResult hk b).trans (if_neg h)

theorem embTAResult_keeps (hk : k < s.desc.carLen.toNat) (h : ¬ PayloadPosition .embTA s k b) :
    ((resultOf .embTA s).words.getD k 0#32).getLsbD b = (s.word .car k).getLsbD b := by
  have htext : ¬ (b = 0 ∧ k < 8 * s.desc.payLen.toNat) := fun ⟨hb, hk'⟩ => h ⟨hb, by omega⟩
  rw [getLsbD_embTAResult hk, if_neg htext]
  exact if_neg h

/-- A bit of an embed's result that carries no payload is the cover's. -/
theorem embedResult_keeps {i : Instr} (hi : i ∈ [Instr.embII, .embTI, .embAA, .embTA])
    (hk : k < (resultOf i s).words.length) (h : ¬ PayloadPosition i s k b) :
    ((resultOf i s).words.getD k 0#32).getLsbD b = (s.word .car k).getLsbD b := by
  rw [length_resultOf] at hk
  cases i
  case embII => exact embIIResult_keeps hk h
  case embTI => exact embTIResult_keeps hk h
  case embAA => exact embAAResult_keeps hk h
  case embTA => exact embTAResult_keeps hk h
  all_goals simp at hi

end

/-- The extent of an embed is its carrier's (20_memory.md R38). -/
theorem length_embedResult {i : Instr} (hi : i ∈ [Instr.embII, .embTI, .embAA, .embTA]) (s : State) :
    (resultOf i s).words.length =
      if i = .embII ∨ i = .embTI then s.desc.carW.toNat * s.desc.carH.toNat else s.desc.carLen.toNat := by
  rw [length_resultOf]
  cases i
  case embII | embTI | embAA | embTA => rfl
  all_goals simp at hi

/-- Settles O38: an embed commits to OUT only, and its result keeps the cover's bits outside the payload positions. -/
theorem embedIsNonDestructive : Obligations.EmbedIsNonDestructive := by
  intro i s t hi he hcap hrng
  have hq : i ≠ .quit := by rintro rfl; simp at hi
  obtain ⟨-, -, rfl⟩ := exec_success hq he hcap hrng
  refine ⟨word_commit_car s _, fun k b hk hne => ?_⟩
  rw [← length_embedResult hi] at hk
  have hpos : PayloadPosition i s k b := by
    by_contra hpos
    refine hne ?_
    rw [word_result (getElem?_of_getD hk 0#32)]
    exact embedResult_keeps hi hk hpos
  refine ⟨?_, ?_, ?_, ?_⟩
  all_goals
    rintro rfl
    exact hpos

end Sys2Proof.Machine

namespace Sys2Proof.Machine

/-! ## PROOFS of the family 41_image_in_image.md

### The command words (30_encoding.md R49) -/

/-- The decoder reads each command's own word (30_encoding.md R49). -/
theorem decode_encode (i : Instr) : decode (encode i) = .ok i := by cases i <;> rfl

/-! ### The conditions of EMB_II and REV_II (60_exceptions.md R90, R91) -/

section

variable {s : State}

theorem capacityError_embII_iff : capacityError .embII s = true ↔
    s.desc.carW.toNat < s.desc.payW.toNat ∨ s.desc.carH.toNat < s.desc.payH.toNat := by
  simp [capacityError]

theorem rangeError_embII_iff : rangeError .embII s = true ↔
    Beyond (carPixels s) s.cfg.carDepth ∨ Beyond (payPixels s) s.cfg.payDepth ∨
      Beyond (carPixels s) s.cfg.outDepth := by
  simp only [rangeError, Bool.or_eq_true, beyond_iff, or_assoc]

theorem rangeError_revII_iff : rangeError .revII s = true ↔
    Beyond (carPixels s) s.cfg.carDepth ∨ s.desc.carW.toNat < s.desc.payW.toNat ∨
      s.desc.carH.toNat < s.desc.payH.toNat ∨ Beyond (payPixels s) s.cfg.outDepth := by
  simp only [rangeError, Bool.or_eq_true, decide_eq_true_eq, beyond_iff, or_assoc]

/-! ### OUT after a successful EMB_II or REV_II (41_image_in_image.md R68, R69) -/

variable {x y : Nat}

/-- Pixel (x, y) after EMB_II: the secret's top bits inside the secret's extent, the cover outside it. -/
theorem word_commit_embII (hx : x < s.desc.carW.toNat) (hy : y < s.desc.carH.toNat) :
    (commit (resultOf .embII s) s).word .out (y * s.desc.carW.toNat + x)
      = if x < s.desc.payW.toNat ∧ y < s.desc.payH.toNat then
          embIIPixel (s.word .car (y * s.desc.carW.toNat + x)) (s.word .pay (y * s.desc.payW.toNat + x))
        else s.word .car (y * s.desc.carW.toNat + x) :=
  word_result (getElem?_embIIResult hx hy)

/-- Pixel (x, y) after REV_II: the carrier's pixel at the same (x, y), one bit a channel. -/
theorem word_commit_revII (hx : x < s.desc.payW.toNat) (hy : y < s.desc.payH.toNat) :
    (commit (resultOf .revII s) s).word .out (y * s.desc.payW.toNat + x)
      = revIIPixel (s.word .car (y * s.desc.carW.toNat + x)) :=
  word_result (getElem?_revIIResult hx hy)

theorem getLsbD_word_commit_embII (hx : x < s.desc.carW.toNat) (hy : y < s.desc.carH.toNat) (b : Nat) :
    ((commit (resultOf .embII s) s).word .out (y * s.desc.carW.toNat + x)).getLsbD b
      = if x < s.desc.payW.toNat ∧ y < s.desc.payH.toNat ∧ (b = 0 ∨ b = 8 ∨ b = 16) then
          (s.word .pay (y * s.desc.payW.toNat + x)).getLsbD (b + 7)
        else (s.word .car (y * s.desc.carW.toNat + x)).getLsbD b := by
  rw [word_commit_embII hx hy]
  by_cases hin : x < s.desc.payW.toNat ∧ y < s.desc.payH.toNat
  · rw [if_pos hin, getLsbD_embIIPixel]
    simp only [hin, true_and]
  · rw [if_neg hin, if_neg fun ⟨hpx, hpy, _⟩ => hin ⟨hpx, hpy⟩]

end

/-- Settles O25: the conditions are those of the registers, the abort is `exec_raises`, and a result is committed whose
every bit `getLsbD_word_commit_embII` gives. -/
theorem embIIEmbedsTopBits : Obligations.EmbIIEmbedsTopBits := by
  refine ⟨decode_encode .embII, fun s cap rng hcap hrng => ?_⟩
  obtain rfl : capacityError .embII s = cap := Bool.eq_iff_iff.2 (capacityError_embII_iff.trans hcap.symm)
  obtain rfl : rangeError .embII s = rng := Bool.eq_iff_iff.2 (rangeError_embII_iff.trans hrng.symm)
  refine ⟨exec_raises (by decide), fun hc hr => ?_⟩
  refine ⟨_, exec_admits (by decide) ⟨hc, hr⟩ (by simp), rfl, ?_, ?_⟩
  · exact fun x y b hx hy _ => getLsbD_word_commit_embII hx hy b
  · exact fun k hk => word_beyond_result (length_resultOf .embII s) hk

/-- Settles O26: REV_II has the range condition only, and commits one `revIIPixel` for each carrier pixel it reads. -/
theorem revIIRecoversOneBitChannels : Obligations.RevIIRecoversOneBitChannels := by
  refine ⟨decode_encode .revII, fun s rng hrng => ?_⟩
  obtain rfl : rangeError .revII s = rng := Bool.eq_iff_iff.2 (rangeError_revII_iff.trans hrng.symm)
  constructor
  · intro hr
    rw [exec_raises (by decide) (.inr hr), hr]
    rfl
  · intro hr
    refine ⟨_, exec_admits (by decide) ⟨rfl, hr⟩ (by simp), rfl, ?_, ?_⟩
    · intro x y b hx hy hb
      rw [word_commit_revII hx hy, getLsbD_revIIPixel _ b hb]
    · exact fun k hk => word_beyond_result (length_resultOf .revII s) hk

/-! ### The round trip (41_image_in_image.md R70) -/

/-- An admitted secret lies inside the cover (60_exceptions.md R90). -/
theorem secret_le_cover {s : State} (ha : Admits .embII s) :
    s.desc.payW.toNat ≤ s.desc.carW.toNat ∧ s.desc.payH.toNat ≤ s.desc.carH.toNat := by
  simpa [capacityError] using ha.1

/-- REV_II admits every descriptor that EMB_II admits: the secret lies inside the cover, so it fits OUT when the cover
does. -/
theorem admits_revII_of_embII {s : State} (ha : Admits .embII s) : Admits .revII s := by
  obtain ⟨hw, hh⟩ := secret_le_cover ha
  obtain ⟨-, hrng⟩ := ha
  simp only [rangeError, Bool.or_eq_false_iff] at hrng
  obtain ⟨⟨hcar, -⟩, hout⟩ := hrng
  have hpay : exceeds (payPixels s) s.cfg.outDepth = false := exceeds_mono (Nat.mul_le_mul hw hh) hout
  exact ⟨rfl, by simp [rangeError, hcar, hpay, hw, hh]⟩

/-- The state that REV_II starts from in the round trip: EMB_II has committed, and the host has moved its result from
OUT to CAR (41_image_in_image.md R70). -/
def afterEmbIIAndMove (s : State) : State := moveOutToCar (carPixels s) (commit (resultOf .embII s) s)

theorem afterEmbIIAndMove_desc (s : State) : (afterEmbIIAndMove s).desc = s.desc := rfl

theorem admits_revII_afterEmbIIAndMove {s : State} (ha : Admits .embII s) : Admits .revII (afterEmbIIAndMove s) :=
  admits_revII_of_embII ha

/-- Inside the secret, CAR holds what EMB_II wrote. -/
theorem word_car_afterEmbIIAndMove {s : State} {x y : Nat} (ha : Admits .embII s) (hx : x < s.desc.payW.toNat)
    (hy : y < s.desc.payH.toNat) :
    (afterEmbIIAndMove s).word .car (y * s.desc.carW.toNat + x)
      = embIIPixel (s.word .car (y * s.desc.carW.toNat + x)) (s.word .pay (y * s.desc.payW.toNat + x)) := by
  obtain ⟨hw, hh⟩ := secret_le_cover ha
  have hxc : x < s.desc.carW.toNat := by omega
  have hyc : y < s.desc.carH.toNat := by omega
  have hk : y * s.desc.carW.toNat + x < carPixels s := raster_index_lt hxc hyc
  rw [afterEmbIIAndMove, word_moveOutToCar_lt _ _ _ hk, word_commit_embII hxc hyc, if_pos ⟨hx, hy⟩]

/-- A colour channel of a recovered pixel holds the channel's LSB as its top bit, 0 elsewhere. -/
theorem getLsbD_chan_revIIPixel (w : Word) {c : Nat} (hc : c < 3) (j : Nat) :
    (chan (revIIPixel w) c).getLsbD j = (decide (j = 7) && w.getLsbD (8 * c)) := by
  rw [getLsbD_chan]
  by_cases h7 : j = 7
  · subst h7
    rw [getLsbD_revIIPixel _ _ (by omega), if_pos (by omega), Nat.add_sub_cancel]
    rfl
  by_cases hj : j < 8
  · have hlow : ¬ 24 ≤ 8 * c + j := by omega
    rw [getLsbD_revIIPixel _ _ (by omega), if_neg (by omega)]
    simp [h7, hlow]
  · simp [h7, hj]

theorem chan_alpha_revIIPixel (w : Word) : chan (revIIPixel w) 3 = 255#8 := by
  refine BitVec.eq_of_getLsbD_eq fun j hj => ?_
  have hlow : ¬ (8 * 3 + j = 7 ∨ 8 * 3 + j = 15 ∨ 8 * 3 + j = 23) := by omega
  have hones : (255#8).getLsbD j = true := by
    rw [show 255#8 = BitVec.allOnes 8 from rfl, BitVec.getLsbD_allOnes, decide_eq_true hj]
  rw [getLsbD_chan, getLsbD_revIIPixel _ _ (by omega), if_neg hlow, hones]
  simp [hj]

/-- What one cover pixel carries of a secret channel is the channel's top bit (41_image_in_image.md R70). -/
theorem chan_revIIPixel_embIIPixel (w p : Word) {c : Nat} (hc : c < 3) :
    chan (revIIPixel (embIIPixel w p)) c = (chan p c >>> 7) <<< 7 := by
  refine BitVec.eq_of_getLsbD_eq fun j hj => ?_
  have hlsb : 8 * c = 0 ∨ 8 * c = 8 ∨ 8 * c = 16 := by omega
  rw [getLsbD_chan_revIIPixel _ hc, getLsbD_embIIPixel, if_pos hlsb]
  by_cases h7 : j = 7
  · subst h7
    rw [BitVec.getLsbD_shiftLeft, BitVec.getLsbD_ushiftRight, getLsbD_chan]
    rfl
  · have hlow : j < 7 := by omega
    simp [h7, hlow]

/-- Settles O39: REV_II reads at (x, y) the pixel that EMB_II wrote there and the move carried to CAR. -/
theorem imageInImageRoundTrip : Obligations.ImageInImageRoundTrip := by
  intro s ha
  refine ⟨commit (resultOf .embII s) s, commit (resultOf .revII (afterEmbIIAndMove s)) (afterEmbIIAndMove s),
    exec_admits (by decide) ha (by simp), exec_admits (by decide) (admits_revII_afterEmbIIAndMove ha) (by simp),
    rfl, rfl, rfl, fun x y hx hy => ?_⟩
  have hout := word_commit_revII (s := afterEmbIIAndMove s) hx hy
  rw [afterEmbIIAndMove_desc, word_car_afterEmbIIAndMove ha hx hy] at hout
  rw [hout]
  exact ⟨fun c hc => chan_revIIPixel_embIIPixel _ _ hc, chan_alpha_revIIPixel _⟩

end Sys2Proof.Machine

namespace Sys2Proof.Machine

/-! ## PROOFS of the family 42_text_in_image.md

### The conditions of EMB_TI and REV_TI (60_exceptions.md R90, R91) -/

section

variable {s : State}

theorem capacityError_embTI_iff :
    capacityError .embTI s = true ↔ 3 * carPixels s < 8 * s.desc.payLen.toNat := by
  simp only [capacityError, decide_eq_true_eq]

theorem rangeError_embTI_iff : rangeError .embTI s = true ↔
    Beyond (carPixels s) s.cfg.carDepth ∨ Beyond s.desc.payLen.toNat s.cfg.payDepth ∨
      Beyond (carPixels s) s.cfg.outDepth := by
  simp only [rangeError, Bool.or_eq_true, beyond_iff, or_assoc]

theorem rangeError_revTI_iff : rangeError .revTI s = true ↔
    Beyond (carPixels s) s.cfg.carDepth ∨ Beyond (3 * carPixels s / 8) s.cfg.outDepth := by
  simp only [rangeError, Bool.or_eq_true, beyond_iff]

/-! ### OUT after a successful EMB_TI (42_text_in_image.md R71) -/

/-- Pixel `p` after EMB_TI, bit by bit. -/
theorem getLsbD_word_commit_embTI {p : Nat} (hp : p < carPixels s) (b : Nat) :
    ((commit (resultOf .embTI s) s).word .out p).getLsbD b
      = if (b = 0 ∨ b = 8 ∨ b = 16) ∧ 3 * p + b / 8 < 8 * s.desc.payLen.toNat then
          (chr (s.word .pay ((3 * p + b / 8) / 8))).getLsbD (7 - (3 * p + b / 8) % 8)
        else (s.word .car p).getLsbD b := by
  have hlen : p < (resultOf .embTI s).words.length := (length_resultOf .embTI s).symm ▸ hp
  rw [word_result (getElem?_of_getD hlen 0#32), getLsbD_embTIResult hp]

end

/-- Settles O27: the conditions are those of the registers, the abort is `exec_raises`, and a result is committed whose
every bit `getLsbD_word_commit_embTI` gives. -/
theorem embTIEmbedsCharacterBits : Obligations.EmbTIEmbedsCharacterBits := by
  refine ⟨decode_encode .embTI, fun s cap rng hcap hrng => ?_⟩
  obtain rfl : capacityError .embTI s = cap := Bool.eq_iff_iff.2 (capacityError_embTI_iff.trans hcap.symm)
  obtain rfl : rangeError .embTI s = rng := Bool.eq_iff_iff.2 (rangeError_embTI_iff.trans hrng.symm)
  refine ⟨exec_raises (by decide), fun hc hr => ?_⟩
  refine ⟨_, exec_admits (by decide) ⟨hc, hr⟩ (by simp), rfl, ?_, ?_⟩
  · exact fun p b hp _ => getLsbD_word_commit_embTI hp b
  · exact fun k hk => word_beyond_result (length_resultOf .embTI s) hk

/-! ### The marker among the decoded bytes (42_text_in_image.md R72) -/

section

variable {s : State} {b : Nat → Byte} {j k : Nat}

/-- What REV_TI recovers stands before the first marker. -/
theorem revTILength_of_markerEnd (h : markerEnd (revTIBytes s) = some j) : revTILength s = j - 2 := by
  simp only [revTILength, h]

theorem revTILength_of_no_marker (h : markerEnd (revTIBytes s) = none) : revTILength s = 0 := by
  simp only [revTILength, h]

/-- The result of REV_TI when the first marker ends at byte `j`. -/
theorem resultOf_revTI_of_markerEnd (h : markerEnd (revTIBytes s) = some j) :
    resultOf .revTI s = ⟨charWords (revTIBytes s) (j - 2), textRegs (BitVec.ofNat 32 (j - 2)), true⟩ := by
  simp only [resultOf, revTIResult, revTILength_of_markerEnd h, h, Option.isSome_some]

/-- Without a marker REV_TI recovers the empty text. -/
theorem resultOf_revTI_of_no_marker (h : markerEnd (revTIBytes s) = none) :
    resultOf .revTI s = ⟨[], textRegs 0#32, false⟩ := by
  simp only [resultOf, revTIResult, revTILength_of_no_marker h, h, Option.isSome_none]
  rfl

/-- Word `k` of OUT after REV_TI is decoded byte `k`, zero-extended. -/
theorem word_commit_revTI (h : markerEnd (revTIBytes s) = some j) (hk : k < j - 2) {c : Byte}
    (hc : (revTIBytes s)[k]? = some c) :
    (commit (resultOf .revTI s) s).word .out k = c.setWidth 32 := by
  refine word_result ?_
  rw [resultOf_revTI_of_markerEnd h, getElem?_charWords _ _ _ hk, hc, Option.map_some]

theorem exec_revTI_refused (hr : rangeError .revTI s = false) (hlen : 2 ^ 32 ≤ revTILength s) :
    exec .revTI s = .refused .textLengthOverflow :=
  if_pos ⟨hr, hlen⟩

/-- REV_TI without a marker completes, and OUT stays as it was (60_exceptions.md R93). -/
theorem exec_revTI_of_no_marker (hr : rangeError .revTI s = false) (h : markerEnd (revTIBytes s) = none) :
    exec .revTI s = .next { s with run := .idle, status := successFlags false, res := textRegs 0#32 } := by
  have hlen : revTILength s < 2 ^ 32 := by simp [revTILength_of_no_marker h]
  rw [exec_admits (by decide) ⟨rfl, hr⟩ fun _ => hlen, resultOf_revTI_of_no_marker h, commit, setPrefix_nil]

/-- REV_TI with a marker whose text fits OUT_LEN completes with TERM 1; what OUT holds is `word_commit_revTI`'s. -/
theorem exec_revTI_of_markerEnd (hr : rangeError .revTI s = false) (h : markerEnd (revTIBytes s) = some j)
    (hlen : j - 2 < 2 ^ 32) :
    exec .revTI s =
      .next { s with run := .idle, status := successFlags true, out := (commit (resultOf .revTI s) s).out,
                     res := textRegs (BitVec.ofNat 32 (j - 2)) } := by
  rw [exec_admits (by decide) ⟨rfl, hr⟩ fun _ => by rwa [revTILength_of_markerEnd h],
    resultOf_revTI_of_markerEnd h]
  rfl

/-! ### The decoded bytes as the sequence that `BytesOfStream` fixes -/

variable (hb : BytesOfStream b fun k => (s.word .car (k / 3)).getLsbD (8 * (k % 3)))

include hb

/-- A marker in the decoded bytes is one in the sequence that `BytesOfStream` fixes. -/
theorem markerAt_revTIBytes_iff (hj : j < 3 * carPixels s / 8) : MarkerAt (revTIBytes s) j ↔ MarkerEndsAt b j := by
  rw [MarkerAt, getElem?_revTIBytes hb hj, getElem?_revTIBytes hb (by omega : j - 1 < _),
    getElem?_revTIBytes hb (by omega : j - 2 < _)]
  simp only [Option.some.injEq, MarkerEndsAt, hash]

theorem markerEnd_revTIBytes_eq_some
    (hj : j < 3 * carPixels s / 8) (hm : MarkerEndsAt b j) (hfirst : ∀ k, k < j → ¬ MarkerEndsAt b k) :
    markerEnd (revTIBytes s) = some j := by
  refine markerEnd_eq_some.2 ⟨by rwa [length_revTIBytes], (markerAt_revTIBytes_iff hb hj).2 hm, fun k hk => ?_⟩
  rw [markerAt_revTIBytes_iff hb (by omega)]
  exact hfirst k hk

theorem markerEnd_revTIBytes_eq_none
    (hnone : ∀ j, j < 3 * carPixels s / 8 → ¬ MarkerEndsAt b j) : markerEnd (revTIBytes s) = none := by
  refine markerEnd_eq_none.2 fun k hk => ?_
  rw [length_revTIBytes] at hk
  rw [markerAt_revTIBytes_iff hb hk]
  exact hnone k hk

end

/-- Settles O28: the range condition is that of the registers; the first marker in `b` is the first one REV_TI finds,
and the three endings are `exec_revTI_of_markerEnd`, `exec_revTI_refused` and `exec_revTI_of_no_marker`. -/
theorem revTIRecoversTextBeforeMarker : Obligations.RevTIRecoversTextBeforeMarker := by
  refine ⟨decode_encode .revTI, fun s rng b hrng => ?_⟩
  obtain rfl : rangeError .revTI s = rng := Bool.eq_iff_iff.2 (rangeError_revTI_iff.trans hrng.symm)
  constructor
  · intro hr
    rw [exec_raises (by decide) (.inr hr), hr]
    rfl
  intro hr hb
  rw [Nat.mul_assoc]
  refine ⟨fun j hj hm hfirst => ?_, fun hnone => ?_⟩
  · have hend := markerEnd_revTIBytes_eq_some hb hj hm hfirst
    have hlen := revTILength_of_markerEnd hend
    refine ⟨fun hfits => ⟨_, exec_revTI_of_markerEnd hr hend hfits, rfl, fun k hk => ?_, fun k hk => ?_⟩,
      fun hover => exec_revTI_refused hr (hlen ▸ hover)⟩
    · exact word_commit_revTI hend hk (getElem?_revTIBytes hb (by unfold carPixels; omega))
    · exact word_beyond_result (length_resultOf .revTI s) (hlen ▸ hk)
  · exact exec_revTI_of_no_marker hr (markerEnd_revTIBytes_eq_none hb hnone)

/-! ### A text read back from the carrier it was embedded into (40_bitplane_primitive.md R59, R61) -/

/-- The LSBs of a pixel carrier begin with the stream embedded into it. -/
theorem prefix_pixelbits_embedPixels {cover : List Word} {l : List Bool} (h : l.length ≤ 3 * cover.length) :
    l <+: pixelbits (embedPixels cover l) := by
  refine List.prefix_iff_getElem?.2 fun k hk => ?_
  have hpos : 3 * (k / 3) + 8 * (k % 3) / 8 = k := by omega
  rw [getElem?_pixelbits _ _ (by rw [length_embedPixels]; omega), getlsb, getLsbD_embedPixels _ _ _ _ (by omega),
    if_pos (by omega), hpos, List.getElem?_eq_getElem hk, Option.getD_some]

/-- The bytes of a stream that begins with a text's bits begin with the text. -/
theorem prefix_bytesof {t : List Byte} {l : List Bool} (h : textbits t <+: l) : t <+: bytesof l := by
  obtain ⟨r, rfl⟩ := h
  exact List.prefix_iff_eq_take.2 (take_bytesof_textbits_append t r).symm

/-! ### The first marker of a sequence that begins with another -/

section

variable {a b : List Byte} {j : Nat}

theorem markerAt_iff_of_prefix (h : a <+: b) (hj : j < a.length) : MarkerAt b j ↔ MarkerAt a j := by
  obtain ⟨r, rfl⟩ := h
  simp only [MarkerAt, List.getElem?_append_left hj, List.getElem?_append_left (by omega : j - 1 < a.length),
    List.getElem?_append_left (by omega : j - 2 < a.length)]

/-- The first marker of the beginning of a sequence is the first of the whole. -/
theorem markerEnd_of_prefix (h : a <+: b) (ha : markerEnd a = some j) : markerEnd b = some j := by
  obtain ⟨hj, hm, hfirst⟩ := markerEnd_eq_some.1 ha
  refine markerEnd_eq_some.2 ⟨hj.trans_le h.length_le, (markerAt_iff_of_prefix h hj).2 hm, fun k hk => ?_⟩
  rw [markerAt_iff_of_prefix h (by omega)]
  exact hfirst k hk

/-- When no marker begins inside the text, the appended one is the first (42_text_in_image.md R73). -/
theorem markerEnd_append_marker {text : List Byte}
    (hfirst : ∀ j < text.length, ¬ ((text ++ marker)[j]? = some hash ∧ (text ++ marker)[j + 1]? = some hash ∧
      (text ++ marker)[j + 2]? = some hash)) : markerEnd (text ++ marker) = some (text.length + 2) := by
  refine markerEnd_eq_some.2 ⟨by simp [marker], ⟨by omega, ?_⟩, ?_⟩
  · simp [marker]
  · rintro k hk ⟨h2, hm⟩
    obtain ⟨i, rfl⟩ := Nat.exists_eq_add_of_le' h2
    exact hfirst i (by omega) hm

end

/-! ### The round trip (42_text_in_image.md R73) -/

/-- A moved extent reads in CAR as it read in OUT. -/
theorem words_car_moveOutToCar (n : Nat) (s : State) : (moveOutToCar n s).words .car n = s.words .out n :=
  List.map_congr_left fun k hk => word_moveOutToCar_lt s n k (List.mem_range.1 hk)

/-- The result extent of a committed command reads as the result's words. -/
theorem words_out_commit {r : Result} {n : Nat} (hn : r.words.length = n) (s : State) :
    (commit r s).words .out n = r.words := by
  subst hn
  refine List.ext_getElem (length_words _ _ _) fun k hk hk' => ?_
  rw [← word_commit_out_lt s r k hk']
  simp [State.words]

/-- The state that REV_TI starts from in the round trip: EMB_TI has committed, and the host has moved its result from
OUT to CAR (42_text_in_image.md R73). -/
def afterEmbTIAndMove (s : State) : State := moveOutToCar (carPixels s) (commit (resultOf .embTI s) s)

theorem carPixels_afterEmbTIAndMove (s : State) : carPixels (afterEmbTIAndMove s) = carPixels s := rfl

section

variable {s : State}

/-- The carrier of the reveal is the embed's result. -/
theorem coverPixels_afterEmbTIAndMove :
    coverPixels (afterEmbTIAndMove s) = embedPixels (coverPixels s) (textbits (payText s)) :=
  (words_car_moveOutToCar _ _).trans (words_out_commit (length_resultOf .embTI s) s)

/-- An admitted text comes back at the start of the bytes REV_TI decodes. -/
theorem payText_prefix_revTIBytes (ha : Admits .embTI s) : payText s <+: revTIBytes (afterEmbTIAndMove s) := by
  have hcap : 8 * s.desc.payLen.toNat ≤ 3 * carPixels s := by simpa [capacityError] using ha.1
  rw [revTIBytes, coverPixels_afterEmbTIAndMove]
  refine prefix_bytesof (prefix_pixelbits_embedPixels ?_)
  rwa [length_textbits, length_payText, length_coverPixels]

/-- REV_TI reads CAR within the depth EMB_TI read it, and three bits a pixel make fewer bytes than pixels. -/
theorem rangeError_revTI_afterEmbTIAndMove (ha : Admits .embTI s) :
    rangeError .revTI (afterEmbTIAndMove s) = false := by
  obtain ⟨-, hrng⟩ := ha
  simp only [rangeError, Bool.or_eq_false_iff] at hrng ⊢
  obtain ⟨⟨hcar, -⟩, hout⟩ := hrng
  exact ⟨hcar, exceeds_mono (by rw [carPixels_afterEmbTIAndMove]; omega) hout⟩

end

/-- Settles O40: the bytes REV_TI decodes begin with the embedded text, so the appended marker is the first it finds,
and what stands before it is the text. -/
theorem textInImageRoundTrip : Obligations.TextInImageRoundTrip := by
  intro s text ha htext hfirst
  have hprefix := payText_prefix_revTIBytes ha
  have hsize := length_payText s
  rw [htext] at hprefix hfirst hsize
  have hend := markerEnd_of_prefix hprefix (markerEnd_append_marker hfirst)
  have hlen : text.length < 2 ^ 32 := by
    have := s.desc.payLen.isLt
    rw [List.length_append] at hsize
    omega
  refine ⟨_, _, exec_admits (by decide) ha (by simp),
    exec_revTI_of_markerEnd (rangeError_revTI_afterEmbTIAndMove ha) hend hlen, rfl, Nat.mod_eq_of_lt hlen,
    fun k hk => ?_⟩
  have hc : (revTIBytes (afterEmbTIAndMove s))[k]? = some text[k] := by
    obtain ⟨r, hr⟩ := hprefix
    rw [← hr, List.append_assoc, List.getElem?_append_left hk, List.getElem?_eq_getElem hk]
  rw [List.getElem?_eq_getElem hk, Option.map_some]
  exact congrArg some (word_commit_revTI hend hk hc)

end Sys2Proof.Machine

namespace Sys2Proof.Machine

/-! ## PROOFS of the family 43_audio_in_audio.md

### The conditions of EMB_AA and REV_AA (60_exceptions.md R90, R91) -/

section

variable {s : State}

theorem capacityError_embAA_iff :
    capacityError .embAA s = true ↔ s.desc.carLen.toNat < 16 * s.desc.payLen.toNat := by
  simp only [capacityError, decide_eq_true_eq]

theorem rangeError_embAA_iff : rangeError .embAA s = true ↔
    Beyond s.desc.carLen.toNat s.cfg.carDepth ∨ Beyond s.desc.payLen.toNat s.cfg.payDepth ∨
      Beyond s.desc.carLen.toNat s.cfg.outDepth := by
  simp only [rangeError, Bool.or_eq_true, beyond_iff, or_assoc]

theorem rangeError_revAA_iff : rangeError .revAA s = true ↔
    Beyond s.desc.carLen.toNat s.cfg.carDepth ∨ s.desc.carLen.toNat < 16 * s.desc.payLen.toNat ∨
      Beyond s.desc.payLen.toNat s.cfg.outDepth := by
  simp only [rangeError, Bool.or_eq_true, decide_eq_true_eq, beyond_iff, or_assoc]

/-- A REV_AA within its range has sixteen carrier samples for each sample it recovers. -/
theorem samples_le_of_rangeError_revAA (h : rangeError .revAA s = false) :
    16 * s.desc.payLen.toNat ≤ s.desc.carLen.toNat := by
  by_contra hlt
  rw [rangeError_revAA_iff.2 (.inr (.inl (by omega)))] at h
  cases h

/-! ### OUT after a successful EMB_AA or REV_AA (43_audio_in_audio.md R74, R75) -/

/-- A word of the result extent, by its place in the result's words. -/
theorem word_commit_eq_getD {i : Instr} {k : Nat} (hk : k < (resultOf i s).words.length) :
    (commit (resultOf i s) s).word .out k = (resultOf i s).words.getD k 0#32 :=
  word_result (getElem?_of_getD hk 0#32)

/-- Sample word `k` after EMB_AA, bit by bit. -/
theorem getLsbD_word_commit_embAA {k : Nat} (hk : k < s.desc.carLen.toNat) (b : Nat) :
    ((commit (resultOf .embAA s) s).word .out k).getLsbD b
      = if b = 0 ∧ k < 16 * s.desc.payLen.toNat then (samp (s.word .pay (k / 16))).getLsbD (k % 16)
        else (s.word .car k).getLsbD b := by
  rw [word_commit_eq_getD ((length_resultOf .embAA s).symm ▸ hk), getLsbD_embAAResult hk]

/-- Sample word `i` after REV_AA, bit by bit. -/
theorem getLsbD_word_commit_revAA {i : Nat} (hi : i < s.desc.payLen.toNat)
    (hr : rangeError .revAA s = false) (b : Nat) :
    ((commit (resultOf .revAA s) s).word .out i).getLsbD b
      = (decide (b < 16) && (s.word .car (16 * i + b)).getLsbD 0) := by
  rw [word_commit_eq_getD ((length_resultOf .revAA s).symm ▸ hi),
    getLsbD_revAAResult hi (samples_le_of_rangeError_revAA hr)]

end

/-- Settles O29: the conditions are those of the registers, the abort is `exec_raises`, and a result is committed whose
every bit `getLsbD_word_commit_embAA` gives. -/
theorem embAAEmbedsSampleBits : Obligations.EmbAAEmbedsSampleBits := by
  refine ⟨decode_encode .embAA, fun s cap rng hcap hrng => ?_⟩
  obtain rfl : capacityError .embAA s = cap := Bool.eq_iff_iff.2 (capacityError_embAA_iff.trans hcap.symm)
  obtain rfl : rangeError .embAA s = rng := Bool.eq_iff_iff.2 (rangeError_embAA_iff.trans hrng.symm)
  refine ⟨exec_raises (by decide), fun hc hr => ?_⟩
  refine ⟨_, exec_admits (by decide) ⟨hc, hr⟩ (by simp), rfl, ?_, ?_⟩
  · exact fun k b hk _ => getLsbD_word_commit_embAA hk b
  · exact fun k hk => word_beyond_result (length_resultOf .embAA s) hk

/-- Settles O30: REV_AA has the range condition only, and commits a result whose every bit
`getLsbD_word_commit_revAA` gives. -/
theorem revAARecoversSamples : Obligations.RevAARecoversSamples := by
  refine ⟨decode_encode .revAA, fun s rng hrng => ?_⟩
  obtain rfl : rangeError .revAA s = rng := Bool.eq_iff_iff.2 (rangeError_revAA_iff.trans hrng.symm)
  constructor
  · intro hr
    rw [exec_raises (by decide) (.inr hr), hr]
    rfl
  · intro hr
    refine ⟨_, exec_admits (by decide) ⟨rfl, hr⟩ (by simp), rfl, ?_, ?_⟩
    · exact fun i b hi _ => getLsbD_word_commit_revAA hi hr b
    · exact fun k hk => word_beyond_result (length_resultOf .revAA s) hk

/-! ### The round trip (43_audio_in_audio.md R76) -/

/-- The state that REV_AA starts from in the round trip: EMB_AA has committed, and the host has moved its result from
OUT to CAR (43_audio_in_audio.md R76). -/
def afterEmbAAAndMove (s : State) : State :=
  moveOutToCar s.desc.carLen.toNat (commit (resultOf .embAA s) s)

section

variable {s : State}

/-- An admitted secret has sixteen cover samples for each of its samples (60_exceptions.md R90). -/
theorem samples_le_of_admits_embAA (ha : Admits .embAA s) :
    16 * s.desc.payLen.toNat ≤ s.desc.carLen.toNat := by
  simpa [capacityError] using ha.1

/-- REV_AA admits every descriptor that EMB_AA admits: the secret is no longer than the cover, so it fits OUT when the
cover does. -/
theorem admits_revAA_of_embAA (ha : Admits .embAA s) : Admits .revAA s := by
  have hcap := samples_le_of_admits_embAA ha
  obtain ⟨-, hrng⟩ := ha
  simp only [rangeError, Bool.or_eq_false_iff] at hrng
  obtain ⟨⟨hcar, -⟩, hout⟩ := hrng
  have hpay : exceeds s.desc.payLen.toNat s.cfg.outDepth = false := exceeds_mono (by omega) hout
  exact ⟨rfl, by simp [rangeError, hcar, hpay, hcap]⟩

theorem admits_revAA_afterEmbAAAndMove (ha : Admits .embAA s) : Admits .revAA (afterEmbAAAndMove s) :=
  admits_revAA_of_embAA ha

/-- The LSB of carrier sample `16 * i + b` is bit `b` of secret sample `i`. -/
theorem lsb_car_afterEmbAAAndMove {i b : Nat} (ha : Admits .embAA s) (hi : i < s.desc.payLen.toNat) (hb : b < 16) :
    ((afterEmbAAAndMove s).word .car (16 * i + b)).getLsbD 0 = (samp (s.word .pay i)).getLsbD b := by
  have hcap := samples_le_of_admits_embAA ha
  have hk : 16 * i + b < s.desc.carLen.toNat := by omega
  rw [afterEmbAAAndMove, word_moveOutToCar_lt _ _ _ hk, getLsbD_word_commit_embAA hk, if_pos ⟨rfl, by omega⟩,
    show (16 * i + b) / 16 = i by omega, show (16 * i + b) % 16 = b by omega]

/-- REV_AA recovers secret sample `i`, zero-extended. -/
theorem word_commit_revAA_afterEmbAAAndMove {i : Nat} (ha : Admits .embAA s) (hi : i < s.desc.payLen.toNat) :
    (commit (resultOf .revAA (afterEmbAAAndMove s)) (afterEmbAAAndMove s)).word .out i
      = (samp (s.word .pay i)).setWidth 32 := by
  refine BitVec.eq_of_getLsbD_eq fun b hb => ?_
  obtain ⟨-, hr⟩ := admits_revAA_afterEmbAAAndMove ha
  rw [getLsbD_word_commit_revAA (s := afterEmbAAAndMove s) hi hr, BitVec.getLsbD_setWidth, decide_eq_true hb,
    Bool.true_and]
  by_cases h16 : b < 16
  · rw [lsb_car_afterEmbAAAndMove ha hi h16, decide_eq_true h16, Bool.true_and]
  · rw [decide_eq_false h16, Bool.false_and, BitVec.getLsbD_of_ge _ _ (by omega)]

end

/-- Settles O41: EMB_AA puts bit `b` of secret sample `i` where REV_AA, after the move, reads it. -/
theorem audioInAudioRoundTrip : Obligations.AudioInAudioRoundTrip := fun _ ha =>
  ⟨_, _, exec_admits (by decide) ha (by simp),
    exec_admits (by decide) (admits_revAA_afterEmbAAAndMove ha) (by simp), rfl, rfl,
    fun _ hk => word_commit_revAA_afterEmbAAAndMove ha hk⟩

end Sys2Proof.Machine

namespace Sys2Proof.Machine

/-! ## PROOFS of the family 44_text_in_audio.md

### The conditions of EMB_TA and REV_TA (60_exceptions.md R90, R91) -/

section

variable {s : State}

theorem capacityError_embTA_iff :
    capacityError .embTA s = true ↔ s.desc.carLen.toNat < 8 * (s.desc.payLen.toNat + 1) := by
  simp only [capacityError, decide_eq_true_eq]

theorem rangeError_embTA_iff : rangeError .embTA s = true ↔
    Beyond s.desc.carLen.toNat s.cfg.carDepth ∨ Beyond s.desc.payLen.toNat s.cfg.payDepth ∨
      Beyond s.desc.carLen.toNat s.cfg.outDepth := by
  simp only [rangeError, Bool.or_eq_true, beyond_iff, or_assoc]

theorem rangeError_revTA_iff : rangeError .revTA s = true ↔
    Beyond s.desc.carLen.toNat s.cfg.carDepth ∨ Beyond (s.desc.carLen.toNat / 8) s.cfg.outDepth := by
  simp only [rangeError, Bool.or_eq_true, beyond_iff]

/-! ### OUT after a successful EMB_TA (44_text_in_audio.md R77) -/

/-- Sample word `k` after EMB_TA, bit by bit. -/
theorem getLsbD_word_commit_embTA {k : Nat} (hk : k < s.desc.carLen.toNat) (b : Nat) :
    ((commit (resultOf .embTA s) s).word .out k).getLsbD b
      = if b = 0 ∧ k < 8 * s.desc.payLen.toNat then (chr (s.word .pay (k / 8))).getLsbD (7 - k % 8)
        else if b = 0 ∧ k < 8 * (s.desc.payLen.toNat + 1) then false
        else (s.word .car k).getLsbD b := by
  rw [word_commit_eq_getD ((length_resultOf .embTA s).symm ▸ hk), getLsbD_embTAResult hk]

end

/-- Settles O31: the conditions are those of the registers, the abort is `exec_raises`, and a result is committed whose
every bit `getLsbD_word_commit_embTA` gives. -/
theorem embTAEmbedsTextAndTerminator : Obligations.EmbTAEmbedsTextAndTerminator := by
  refine ⟨decode_encode .embTA, fun s cap rng hcap hrng => ?_⟩
  obtain rfl : capacityError .embTA s = cap := Bool.eq_iff_iff.2 (capacityError_embTA_iff.trans hcap.symm)
  obtain rfl : rangeError .embTA s = rng := Bool.eq_iff_iff.2 (rangeError_embTA_iff.trans hrng.symm)
  refine ⟨exec_raises (by decide), fun hc hr => ?_⟩
  refine ⟨_, exec_admits (by decide) ⟨hc, hr⟩ (by simp), rfl, ?_, ?_⟩
  · exact fun k b hk _ => getLsbD_word_commit_embTA hk b
  · exact fun k hk => word_beyond_result (length_resultOf .embTA s) hk

/-! ### The first zero byte among the decoded bytes (44_text_in_audio.md R78) -/

section

variable {s : State} {b : Nat → Byte} {j k : Nat}

/-- What REV_TA recovers stands before the first zero byte. -/
theorem revTALength_of_zeroByte (h : zeroByte (revTABytes s) = some j) : revTALength s = j := by
  simp only [revTALength, h]

theorem revTALength_of_no_zeroByte (h : zeroByte (revTABytes s) = none) : revTALength s = 0 := by
  simp only [revTALength, h]

/-- The result of REV_TA when byte `j` is the first zero byte. -/
theorem resultOf_revTA_of_zeroByte (h : zeroByte (revTABytes s) = some j) :
    resultOf .revTA s = ⟨charWords (revTABytes s) j, textRegs (BitVec.ofNat 32 j), true⟩ := by
  simp only [resultOf, revTAResult, revTALength_of_zeroByte h, h, Option.isSome_some]

/-- Without a zero byte REV_TA recovers the empty text. -/
theorem resultOf_revTA_of_no_zeroByte (h : zeroByte (revTABytes s) = none) :
    resultOf .revTA s = ⟨[], textRegs 0#32, false⟩ := by
  simp only [resultOf, revTAResult, revTALength_of_no_zeroByte h, h, Option.isSome_none]
  rfl

/-- Word `k` of OUT after REV_TA is decoded byte `k`, zero-extended. -/
theorem word_commit_revTA (h : zeroByte (revTABytes s) = some j) (hk : k < j) {c : Byte}
    (hc : (revTABytes s)[k]? = some c) :
    (commit (resultOf .revTA s) s).word .out k = c.setWidth 32 := by
  refine word_result ?_
  rw [resultOf_revTA_of_zeroByte h, getElem?_charWords _ _ _ hk, hc, Option.map_some]

/-- REV_TA without a zero byte completes, and OUT stays as it was (60_exceptions.md R93). -/
theorem exec_revTA_of_no_zeroByte (hr : rangeError .revTA s = false) (h : zeroByte (revTABytes s) = none) :
    exec .revTA s = .next { s with run := .idle, status := successFlags false, res := textRegs 0#32 } := by
  rw [exec_admits (by decide) ⟨rfl, hr⟩ (by simp), resultOf_revTA_of_no_zeroByte h, commit, setPrefix_nil]

/-- REV_TA with a zero byte completes with TERM 1; what OUT holds is `word_commit_revTA`'s. -/
theorem exec_revTA_of_zeroByte (hr : rangeError .revTA s = false) (h : zeroByte (revTABytes s) = some j) :
    exec .revTA s =
      .next { s with run := .idle, status := successFlags true, out := (commit (resultOf .revTA s) s).out,
                     res := textRegs (BitVec.ofNat 32 j) } := by
  rw [exec_admits (by decide) ⟨rfl, hr⟩ (by simp), resultOf_revTA_of_zeroByte h]
  rfl

/-! ### The decoded bytes as the sequence that `BytesOfStream` fixes -/

variable (hb : BytesOfStream b fun k => (s.word .car k).getLsbD 0)

include hb

/-- A zero byte among the decoded ones is one in the sequence that `BytesOfStream` fixes. -/
theorem revTABytes_eq_zero_iff (hj : j < s.desc.carLen.toNat / 8) :
    (revTABytes s)[j]? = some 0#8 ↔ b j = 0#8 := by
  rw [getElem?_revTABytes hb hj, Option.some.injEq]

theorem zeroByte_revTABytes_eq_some (hj : j < s.desc.carLen.toNat / 8) (hz : b j = 0#8)
    (hfirst : ∀ k, k < j → b k ≠ 0#8) : zeroByte (revTABytes s) = some j := by
  refine zeroByte_eq_some.2 ⟨by rwa [length_revTABytes], (revTABytes_eq_zero_iff hb hj).2 hz, fun k hk => ?_⟩
  rw [Ne, revTABytes_eq_zero_iff hb (by omega)]
  exact hfirst k hk

theorem zeroByte_revTABytes_eq_none (hnone : ∀ j, j < s.desc.carLen.toNat / 8 → b j ≠ 0#8) :
    zeroByte (revTABytes s) = none := by
  refine zeroByte_eq_none.2 fun k hk => ?_
  rw [length_revTABytes] at hk
  rw [Ne, revTABytes_eq_zero_iff hb hk]
  exact hnone k hk

end

/-- Settles O32: the range condition is that of the registers; the first zero byte in `b` is the first one REV_TA
finds, and the two endings are `exec_revTA_of_zeroByte` and `exec_revTA_of_no_zeroByte`. -/
theorem revTARecoversTextBeforeZero : Obligations.RevTARecoversTextBeforeZero := by
  refine ⟨decode_encode .revTA, fun s rng b hrng => ?_⟩
  obtain rfl : rangeError .revTA s = rng := Bool.eq_iff_iff.2 (rangeError_revTA_iff.trans hrng.symm)
  constructor
  · intro hr
    rw [exec_raises (by decide) (.inr hr), hr]
    rfl
  intro hr hb
  refine ⟨fun j hj hz hfirst => ?_, fun hnone => ?_⟩
  · have hzero := zeroByte_revTABytes_eq_some hb hj hz hfirst
    have hfits : j < 2 ^ 32 := by have := s.desc.carLen.isLt; omega
    refine ⟨_, exec_revTA_of_zeroByte hr hzero, rfl, Nat.mod_eq_of_lt hfits, fun k hk => ?_, fun k hk => ?_⟩
    · exact word_commit_revTA hzero hk (getElem?_revTABytes hb (by omega))
    · exact word_beyond_result (length_resultOf .revTA s) ((revTALength_of_zeroByte hzero).trans_le hk)
  · exact exec_revTA_of_no_zeroByte hr (zeroByte_revTABytes_eq_none hb hnone)

/-! ### The terminator of a text without a zero code (44_text_in_audio.md R79) -/

/-- The LSBs of a sample carrier begin with the stream embedded into it. -/
theorem prefix_samplelsbs_embedSamples {cover : List Word} {l : List Bool} (h : l.length ≤ cover.length) :
    l <+: samplelsbs (embedSamples cover l) := by
  refine List.prefix_iff_getElem?.2 fun k hk => ?_
  rw [getElem?_samplelsbs, getElem?_of_getD (by rw [length_embedSamples]; omega) 0#32, Option.map_some, getlsb,
    getLsbD_embedSamples _ _ _ _ (by omega), if_pos rfl, List.getElem?_eq_getElem hk, Option.getD_some]

/-- The appended terminator is the first zero byte, whatever bytes follow. -/
theorem zeroByte_of_prefix {text bytes : List Byte} (h : text ++ [0#8] <+: bytes) (htext : 0#8 ∉ text) :
    zeroByte bytes = some text.length := by
  obtain ⟨rest, rfl⟩ := h
  rw [List.append_assoc]
  refine zeroByte_eq_some.2 ⟨by simp, by simp, fun k hk hz => htext ?_⟩
  rw [List.getElem?_append_left hk] at hz
  exact List.mem_of_getElem? hz

/-! ### The round trip (44_text_in_audio.md R79) -/

/-- The state that REV_TA starts from in the round trip: EMB_TA has committed, and the host has moved its result from
OUT to CAR (44_text_in_audio.md R79). -/
def afterEmbTAAndMove (s : State) : State :=
  moveOutToCar s.desc.carLen.toNat (commit (resultOf .embTA s) s)

section

variable {s : State}

/-- The carrier of the reveal is the embed's result. -/
theorem coverSamples_afterEmbTAAndMove :
    coverSamples (afterEmbTAAndMove s) = embedSamples (coverSamples s) (textbits (payText s ++ [0#8])) :=
  (words_car_moveOutToCar _ _).trans (words_out_commit (length_resultOf .embTA s) s)

/-- An admitted text and its terminator come back at the start of the bytes REV_TA decodes. -/
theorem payText_zero_prefix_revTABytes (ha : Admits .embTA s) :
    payText s ++ [0#8] <+: revTABytes (afterEmbTAAndMove s) := by
  have hcap : 8 * (s.desc.payLen.toNat + 1) ≤ s.desc.carLen.toNat := by simpa [capacityError] using ha.1
  rw [revTABytes, coverSamples_afterEmbTAAndMove]
  refine prefix_bytesof (prefix_samplelsbs_embedSamples ?_)
  rwa [length_textbits, List.length_append, length_payText, length_coverSamples]

/-- REV_TA reads CAR within the depth EMB_TA read it, and eight samples make one byte. -/
theorem rangeError_revTA_afterEmbTAAndMove (ha : Admits .embTA s) :
    rangeError .revTA (afterEmbTAAndMove s) = false := by
  obtain ⟨-, hrng⟩ := ha
  simp only [rangeError, Bool.or_eq_false_iff] at hrng ⊢
  obtain ⟨⟨hcar, -⟩, hout⟩ := hrng
  exact ⟨hcar, exceeds_mono (Nat.div_le_self _ 8) hout⟩

theorem zero_notMem_payText (h : ∀ k, k < s.desc.payLen.toNat → chr (s.word .pay k) ≠ 0#8) : 0#8 ∉ payText s := by
  intro hmem
  obtain ⟨k, hk⟩ := List.mem_iff_getElem?.1 hmem
  have hlt : k < s.desc.payLen.toNat := length_payText s ▸ (List.getElem?_eq_some_iff.1 hk).1
  rw [getElem?_payText hlt, Option.some.injEq] at hk
  exact h k hlt hk

end

/-- Settles O42: the bytes REV_TA decodes begin with the embedded text and its terminator, which is the first zero byte
it finds, and what stands before it is the text. -/
theorem textInAudioRoundTrip : Obligations.TextInAudioRoundTrip := by
  intro s ha hnz
  have hprefix := payText_zero_prefix_revTABytes ha
  have hzero := zeroByte_of_prefix hprefix (zero_notMem_payText hnz)
  rw [length_payText] at hzero
  refine ⟨_, _, exec_admits (by decide) ha (by simp),
    exec_revTA_of_zeroByte (rangeError_revTA_afterEmbTAAndMove ha) hzero, rfl,
    (BitVec.ofNat_toNat 32 s.desc.payLen).trans (BitVec.setWidth_eq _), fun k hk => ?_⟩
  have hc : (revTABytes (afterEmbTAAndMove s))[k]? = some (chr (s.word .pay k)) := by
    obtain ⟨rest, hrest⟩ := hprefix
    rw [← hrest, List.append_assoc, List.getElem?_append_left (by rwa [length_payText]), getElem?_payText hk]
  exact word_commit_revTA hzero hk hc

end Sys2Proof.Machine

namespace Sys2Proof.Machine

/-! ## PROOFS of the family 45_control.md

### An invalid command word (45_control.md R84, 60_exceptions.md R92) -/

/-- The only word that is decoded to a command is the command's own: the mask of every row of the table covers all 32
bits (30_encoding.md R46). -/
theorem eq_encode_of_decode {w : Word} {i : Instr} (h : decode w = .ok i) : w = encode i := by
  unfold decode at h
  split at h
  next r hr =>
    have hmem : r ∈ opcodeTable := List.mem_of_find?_eq_some hr
    have hrow : ∀ r ∈ opcodeTable, r.mask = BitVec.allOnes 32 ∧ r.pattern = encode r.instr := by decide
    have hcovers : w &&& r.mask = r.pattern := by simpa [OpcodeRow.covers] using List.find?_some hr
    rw [(hrow r hmem).1, BitVec.and_allOnes, (hrow r hmem).2] at hcovers
    rw [hcovers, Except.ok.inj h]
  next => cases h

/-- The command words are 1 to 9 (30_encoding.md R49). -/
theorem encode_toNat_bounds (i : Instr) : 1 ≤ (encode i).toNat ∧ (encode i).toNat ≤ 9 := by
  cases i <;> decide

/-- Every word outside 1 to 9 takes InvalidCommand. -/
theorem complete_invalid {s : State} (h : s.cmd.toNat = 0 ∨ 10 ≤ s.cmd.toNat) :
    complete s = .next (takeException false false true s) := by
  rcases complete_cases s with ⟨i, hi, _⟩ | ⟨_, _, hc⟩
  · have hb := encode_toNat_bounds i
    rw [← eq_encode_of_decode hi] at hb
    omega
  · exact hc

theorem statusWord_invalidCommand : statusWord .idle (exceptionFlags false false true) = 0x00000404#32 := by decide

/-- Settles O7: the decoder finds no command, and the exception sets DONE and ERR_CMD alone. -/
theorem invalidCommandCompletes : Obligations.InvalidCommandCompletes := fun _ h =>
  ⟨_, complete_invalid h, statusWord_invalidCommand, rfl⟩

/-! ### QUIT and HALTED (45_control.md R83) -/

theorem statusWord_quit : statusWord .halted quitFlags = 0x00000006#32 := by decide

/-- Outside BUSY a memory read only answers. -/
theorem readMem_answers {s : State} (h : s.run ≠ .busy) (m : Buffer) (i : Nat) :
    ∃ w, readMem m i s = s.respond (some w) := by
  cases hi : inDepth i (depthOf s.cfg m) with
  | true => exact ⟨_, readMem_word h hi⟩
  | false => exact ⟨_, readMem_beyond hi⟩

/-- In HALTED every transaction but reset leaves nothing but an answer. -/
theorem access_halted {s : State} {op : PortOp} (h : s.run = .halted) (hop : op ≠ .reset) :
    ∃ r, access op s = s.respond r := by
  have hidle : s.run ≠ .idle := by simp [h]
  cases op with
  | readReg n => exact ⟨_, rfl⟩
  | writeReg n v => exact ⟨none, congrArg (State.respond none) (writeReg_ignored hidle n v)⟩
  | readMem m i =>
    obtain ⟨w, hw⟩ := readMem_answers (s := s) (by simp [h]) m i
    exact ⟨some w, hw⟩
  | writeMem m i v => exact ⟨none, congrArg (State.respond none) (writeMem_ignored v (.inl hidle))⟩
  | reset => exact absurd rfl hop

/-- Settles O9: QUIT is `halt`; a HALTED engine waits, ignores writes and answers reads, and reset leaves HALTED. -/
theorem quitHaltsUntilReset : Obligations.QuitHaltsUntilReset := by
  refine ⟨fun s => ⟨halt s, rfl, statusWord_quit, rfl⟩, fun s h => ?_⟩
  have hbusy : s.run ≠ .busy := by simp [h]
  exact ⟨engineTurn_wait hbusy, fun _ hop => access_halted h hop, fun _ => rfl,
    fun m i hi => readMem_word hbusy ((below_iff i _).1 hi), rfl⟩

/-! ### Register reads (45_control.md R86) -/

section
variable {s : State} {n : Fin 32} {r : Reg}

theorem regValue_of_regAt (h : regAt n = some r) : regValue n s = s.reg r := by
  simp only [regValue, h]

theorem regValue_of_regAt_none (h : regAt n = none) : regValue n s = 0#32 := by
  simp only [regValue, h]

theorem regAt_reserved (h : ReservedNumber n.val) : regAt n = none := by
  have key : ∀ n : Fin 32, ReservedNumber n.val → regAt n = none := by
    unfold ReservedNumber; decide
  exact key n h

/-- `Reg.number` undoes `regAt`: no register has two numbers. -/
theorem number_of_regAt (h : regAt n = some r) : r.number = n := by
  have key : ∀ n : Fin 32, ∀ r ∈ regAt n, r.number = n := by decide
  exact key n r h

@[simp] theorem regValue_respond (a : Option Word) : regValue n (s.respond a) = regValue n s := rfl

end

/-- Settles O12: a read of the register port is `respond` with the register's value. -/
theorem registerReadHasNoSideEffect : Obligations.RegisterReadHasNoSideEffect := fun _ _ =>
  ⟨_, rfl, fun _ hr => regValue_of_regAt hr, fun hres => regValue_of_regAt_none (regAt_reserved hres)⟩

/-! ### Register writes (45_control.md R81, R87) -/

/-- The RW registers other than CMD (10_state.md R13). -/
def descriptorRegs : List Reg :=
  [.carW, .carH, .carLen, .payW, .payH, .payLen, .carChannels, .carSwidth, .carFrate, .carFrames, .carComp]

/-- The numbers 2 to 7 and 16 to 20 are those of `descriptorRegs`. -/
theorem regAt_mem_descriptorRegs {n : Fin 32} (h : DescriptorNumber n.val) :
    ∃ r ∈ descriptorRegs, regAt n = some r := by
  have key : ∀ n : Fin 32, DescriptorNumber n.val → ∃ r ∈ descriptorRegs, regAt n = some r := by
    unfold DescriptorNumber; decide
  exact key n h

/-- What each register holds after a descriptor register was written. -/
theorem reg_setDesc_set {r : Reg} (hr : r ∈ descriptorRegs) (s : State) (v : Word) (q : Reg) :
    (s.setDesc (s.desc.set v r)).reg q = if q = r then v else s.reg q := by
  simp only [descriptorRegs] at hr
  fin_cases hr <;> cases q <;> rfl

/-- What each register number reads after a descriptor register was written. -/
theorem regValue_setDesc_set {n : Fin 32} {r : Reg} (hr : r ∈ descriptorRegs) (hn : regAt n = some r) (s : State)
    (v : Word) (k : Fin 32) :
    regValue k (s.setDesc (s.desc.set v r)) = if k = n then v else regValue k s := by
  cases hk : regAt k with
  | none =>
    have hne : k ≠ n := by rintro rfl; simp [hk] at hn
    rw [if_neg hne, regValue_of_regAt_none hk, regValue_of_regAt_none hk]
  | some q =>
    have hiff : k = n ↔ q = r :=
      ⟨fun h => Option.some.inj (hk.symm.trans (h ▸ hn)),
        fun h => (number_of_regAt hk).symm.trans (h ▸ number_of_regAt hn)⟩
    rw [regValue_of_regAt hk, regValue_of_regAt hk, reg_setDesc_set hr]
    simp only [hiff]

/-- In IDLE an RW register other than CMD takes the written value. -/
theorem writeReg_descriptor {s : State} {n : Fin 32} {r : Reg} (h : s.run = .idle) (hr : r ∈ descriptorRegs)
    (hn : regAt n = some r) (v : Word) : writeReg n v s = s.setDesc (s.desc.set v r) := by
  have hcmd : r ≠ .cmd := by rintro rfl; revert hr; decide
  rw [writeReg_idle h, writeRegIdle_of_ne (by simpa [hn] using hcmd), hn]

/-- Settles O13: the four kinds of register write, each by the lemma about `writeReg` in its case. -/
theorem registerWriteEffect : Obligations.RegisterWriteEffect := by
  refine fun s n v => ⟨?starts, ?stores, ?ignoredInIdle, ?ignoredOutsideIdle⟩
  case starts =>
    rintro h rfl
    exact congrArg (State.respond none) (writeReg_idle h 0 v)
  case stores =>
    intro h hd
    obtain ⟨r, hr, hn⟩ := regAt_mem_descriptorRegs hd
    refine ⟨_, congrArg (State.respond none) (writeReg_descriptor h hr hn v), rfl, ?_, fun k hk => ?_⟩
    · rw [regValue_respond, regValue_setDesc_set hr hn, if_pos rfl]
    · rw [regValue_respond, regValue_setDesc_set hr hn, if_neg hk]
  case ignoredInIdle =>
    intro h hn hd
    exact congrArg (State.respond none) ((writeReg_idle h n v).trans (writeRegIdle_ignored hn hd v s))
  case ignoredOutsideIdle =>
    exact fun h => congrArg (State.respond none) (writeReg_ignored h n v)

/-! ### Memory accesses (45_control.md R88) -/

theorem not_below_iff (i : Nat) (d : Option Nat) : ¬ Below i d ↔ inDepth i d = false := by
  rw [below_iff, Bool.not_eq_true]

/-- Replacing a memory changes no field but the memories. -/
theorem setMem_frame (s : State) (m : Buffer) (c : Memory) :
    s.setMem m c = { s with car := (s.setMem m c).car, pay := (s.setMem m c).pay, out := (s.setMem m c).out } := by
  cases m <;> rfl

/-- Settles O14: one row of the table of R88 for each lemma about `writeMem` and `readMem`. -/
theorem memoryPortAccess : Obligations.MemoryPortAccess := by
  refine ⟨fun s m i v => ⟨?stores, ?ignored⟩, fun s m i => ⟨?word, ?draw, ?zero⟩⟩
  case stores =>
    intro h hi
    refine ⟨_, congrArg (State.respond none) (writeMem_stores v h ((below_iff i _).1 hi)),
      congrArg (State.respond none) (setMem_frame s m _), ?_, fun k j hkj => ?_⟩
    · rw [word_respond, word_setMem_set, if_pos ⟨rfl, rfl⟩]
    · rw [word_respond, word_setMem_set, if_neg fun hmk => hkj ⟨hmk.1.symm, hmk.2.symm⟩]
  case ignored =>
    exact fun h => congrArg (State.respond none) (writeMem_ignored v (h.imp_right (not_below_iff i _).1))
  case word => exact fun h hi => readMem_word h ((below_iff i _).1 hi)
  case draw => exact fun h hi => readMem_busy h ((below_iff i _).1 hi)
  case zero => exact fun hi => readMem_beyond ((not_below_iff i _).1 hi)

end Sys2Proof.Machine

namespace Sys2Proof.Machine

/-! ## PROOFS of the family 60_exceptions.md

### The error bits that a command leaves (60_exceptions.md R95, R96) -/

section

variable {i : Instr} {s t : State}

theorem ne_quit_of_raises (h : capacityError i s = true ∨ rangeError i s = true) : i ≠ .quit := by
  rintro rfl
  simp [capacityError, rangeError] at h

/-- The error bits after a command are its two conditions, whether it took the exception, committed or halted. -/
theorem exec_errors (h : exec i s = .next t) :
    t.status.errCap = capacityError i s ∧ t.status.errRange = rangeError i s ∧ t.status.errCmd = false := by
  rcases exec_next_cases h with ⟨-, -, rfl⟩ | ⟨-, ⟨hcap, hrng⟩, -, rfl⟩ | ⟨rfl, rfl⟩
  · exact ⟨rfl, rfl, rfl⟩
  · exact ⟨hcap.symm, hrng.symm, rfl⟩
  · exact ⟨rfl, rfl, rfl⟩

theorem exec_errCap (h : exec i s = .next t) : t.status.errCap = capacityError i s :=
  (exec_errors h).1

theorem exec_errRange (h : exec i s = .next t) : t.status.errRange = rangeError i s :=
  (exec_errors h).2.1

theorem complete_invalid_status (hw : s.cmd.toNat = 0 ∨ 10 ≤ s.cmd.toNat) (h : complete s = .next t) :
    t.status = exceptionFlags false false true := by
  rw [complete_invalid hw] at h
  cases h
  rfl

/-- Only an embed has a capacity condition (60_exceptions.md R90). -/
theorem capacityError_of_not_embed (hi : i ∈ [Instr.revII, .revTI, .revAA, .revTA, .quit]) :
    capacityError i s = false := by
  fin_cases hi <;> rfl

end

/-- Settles O19: a raised condition and an invalid word both end in `takeException`, and `exec_errors` says what the
error bits are. -/
theorem exceptionChangesOnlyStatus : Obligations.ExceptionChangesOnlyStatus :=
  ⟨fun _ _ h => exec_raises (ne_quit_of_raises h) h, fun _ hw => complete_invalid hw, fun _ _ _ h => exec_errors h⟩

/-- Settles O20: ERR_CAP is the capacity condition of the command, which only the embeds have. -/
theorem capacityErrorIsRaisedExactly : Obligations.CapacityErrorIsRaisedExactly := by
  refine fun s t => ⟨fun h => ?embII, fun h => ?embTI, fun h => ?embAA, fun h => ?embTA, fun i hi h => ?others,
    fun hw h => ?invalid⟩
  case embII => rw [exec_errCap h, capacityError_embII_iff]
  case embTI => rw [exec_errCap h, capacityError_embTI_iff, carPixels, Nat.mul_assoc]
  case embAA => rw [exec_errCap h, capacityError_embAA_iff]
  case embTA => rw [exec_errCap h, capacityError_embTA_iff]
  case others => rw [exec_errCap h, capacityError_of_not_embed hi]
  case invalid => rw [complete_invalid_status hw h, exceptionFlags]

/-- Settles O21: ERR_RANGE is the range condition of the command, clause by clause. -/
theorem rangeErrorIsRaisedExactly : Obligations.RangeErrorIsRaisedExactly := by
  refine fun s t => ⟨fun h => ?embII, fun h => ?revII, fun h => ?embTI, fun h => ?revTI, fun h => ?embAA,
    fun h => ?revAA, fun h => ?embTA, fun h => ?revTA, fun h => ?quit, fun hw h => ?invalid⟩
  case embII => rw [exec_errRange h, rangeError_embII_iff, carPixels, payPixels]
  case revII => rw [exec_errRange h, rangeError_revII_iff, carPixels, payPixels]
  case embTI => rw [exec_errRange h, rangeError_embTI_iff, carPixels]
  case revTI => rw [exec_errRange h, rangeError_revTI_iff, carPixels, Nat.mul_assoc]
  case embAA => rw [exec_errRange h, rangeError_embAA_iff]
  case revAA => rw [exec_errRange h, rangeError_revAA_iff]
  case embTA => rw [exec_errRange h, rangeError_embTA_iff]
  case revTA => rw [exec_errRange h, rangeError_revTA_iff]
  case quit => rw [exec_errRange h, rangeError]
  case invalid => rw [complete_invalid_status hw h, exceptionFlags]

/-! ### A terminator that is not found (60_exceptions.md R93) -/

section

variable {i : Instr} {s u : State}

theorem rangeError_revTI_eq_false (hcar : ¬ Beyond (carPixels s) s.cfg.carDepth)
    (hout : ¬ Beyond (3 * carPixels s / 8) s.cfg.outDepth) : rangeError .revTI s = false :=
  Bool.eq_false_iff.2 fun h => (rangeError_revTI_iff.1 h).elim hcar hout

theorem rangeError_revTA_eq_false (hcar : ¬ Beyond s.desc.carLen.toNat s.cfg.carDepth)
    (hout : ¬ Beyond (s.desc.carLen.toNat / 8) s.cfg.outDepth) : rangeError .revTA s = false :=
  Bool.eq_false_iff.2 fun h => (rangeError_revTA_iff.1 h).elim hcar hout

/-- A text reveal that ends without error and with TERM 0 found no terminator: TERM is whether its search found one. -/
theorem textReveal_without_term (hi : i ∈ [Instr.revTI, .revTA]) (h : exec i s = .next u)
    (hcap : u.status.errCap = false) (hrng : u.status.errRange = false) (hterm : u.status.term = false) :
    u = { s with run := .idle, status := successFlags false, res := textRegs 0#32 } := by
  obtain ⟨⟨-, hr⟩, -, hu⟩ := exec_success (by rintro rfl; simp at hi) h hcap hrng
  rw [hu, commit_status, successFlags] at hterm
  obtain rfl | rfl : i = .revTI ∨ i = .revTA := by simpa using hi
  · have hnone : markerEnd (revTIBytes s) = none := by simpa [resultOf, revTIResult] using hterm
    exact Host.Outcome.next.inj (h.symm.trans (exec_revTI_of_no_marker hr hnone))
  · have hnone : zeroByte (revTABytes s) = none := by simpa [resultOf, revTAResult] using hterm
    exact Host.Outcome.next.inj (h.symm.trans (exec_revTA_of_no_zeroByte hr hnone))

end

/-- Settles O23: without a terminator the search fails and the empty text is committed; and TERM 0 without an error
means that the search failed. -/
theorem missingTerminatorIsNoException : Obligations.MissingTerminatorIsNoException := by
  rintro s _ b rfl
  refine ⟨fun hcar hout hb hnone => ?revTI, fun hcar hout hb hnone => ?revTA,
    fun _ _ => textReveal_without_term⟩
  case revTI =>
    rw [Nat.mul_assoc] at hnone
    exact exec_revTI_of_no_marker (rangeError_revTI_eq_false hcar hout) (markerEnd_revTIBytes_eq_none hb hnone)
  case revTA =>
    exact exec_revTA_of_no_zeroByte (rangeError_revTA_eq_false hcar hout) (zeroByte_revTABytes_eq_none hb hnone)

end Sys2Proof.Machine

namespace Sys2Proof.Machine

/-! ## PROOFS of the family 70_reset_and_hazards.md

### The reset input (70_reset_and_hazards.md R101) -/

/-- Nothing of the state before a reset input is seen in a register: each reads as in the state of R27. -/
theorem reg_resetEngine (s : State) (r : Reg) : (resetEngine s).reg r = State.reset.reg r := by
  cases r <;> rfl

theorem mem_resetEngine (s : State) (m : Buffer) : (resetEngine s).mem m = .unwritten := by
  cases m <;> rfl

/-- Settles O18: the reset input is `resetEngine`, which leaves the registers of `State.reset` and lists no memory word,
so that every word is a free value of the epoch it begins. -/
theorem resetTransaction : Obligations.ResetTransaction := by
  refine fun s => ⟨?idle, ?registers, ?words, ?depths⟩
  case idle => exact resetEngine_run s
  case registers => exact regValue_eq_zero fun r => (reg_resetEngine s r).trans (reg_reset r)
  case words => exact fun m => word_of_unwritten (mem_resetEngine s m)
  case depths => exact resetEngine_cfg s

end Sys2Proof.Machine

namespace Sys2Proof.Machine

/-! ## PROOFS of the family other: the command words (30_encoding.md)

### Decoding and encoding (30_encoding.md R46, R49, R50) -/

section

variable {w : Word} {i : Instr}

theorem decode_eq_ok_iff : decode w = .ok i ↔ w = encode i :=
  ⟨eq_encode_of_decode, fun h => h ▸ decode_encode i⟩

/-- In the table's numbering a word stands for itself. -/
theorem tableWord_toNat (w : Word) : tableWord 32 w.toNat = some w := by
  simp [tableWord, Nat.mod_eq_of_lt w.isLt, w.isLt]

theorem decodeTableWord_toNat_eq_some_iff : decodeTableWord 32 w.toNat = some i ↔ decode w = .ok i := by
  simp only [decodeTableWord, tableWord_toNat]
  cases decode w <;> simp [Except.toOption]

/-- The words 1 to 9 are all command words. -/
theorem exists_encode_eq (hlow : 1 ≤ w.toNat) (hhigh : w.toNat ≤ 9) : ∃ i, encode i = w := by
  have key : ∀ k : Fin 9, ∃ r ∈ opcodeTable, encode r.instr = BitVec.ofNat 32 (k.val + 1) := by decide
  obtain ⟨r, -, hr⟩ := key ⟨w.toNat - 1, by omega⟩
  refine ⟨r.instr, hr.trans ?_⟩
  rw [Nat.sub_add_cancel hlow, BitVec.ofNat_toNat, BitVec.setWidth_eq]

/-- A rejected word is rejected under its own value. -/
theorem eq_invalidCommand_of_decode {e : Reject} (h : decode w = .error e) : e = .invalidCommand w := by
  unfold decode at h
  split at h
  next => cases h
  next => exact (Except.error.inj h).symm

end

/-- Settles O2: a decoded word is the command's own (`decode_eq_ok_iff`), and the table's numbering changes no word. -/
theorem decodeAndEncodeAgree : Obligations.DecodeAndEncodeAgree := fun _ _ _ =>
  ⟨decode_eq_ok_iff, decodeTableWord_toNat_eq_some_iff.trans decode_eq_ok_iff⟩

/-- Settles O3: the words 1 to 9 are command words and decode, and no other word is one. -/
theorem everyOtherWordIsRejected : Obligations.EveryOtherWordIsRejected := by
  intro w
  constructor
  · intro h
    by_contra hw
    obtain ⟨i, rfl⟩ := exists_encode_eq (w := w) (by omega) (by omega)
    rw [decode_encode] at h
    cases h
  · intro hw
    cases h : decode w with
    | ok i =>
      have hb := encode_toNat_bounds i
      rw [← eq_encode_of_decode h] at hb
      omega
    | error e => rw [eq_invalidCommand_of_decode h]

/-- Settles O1: the nine words are the encodings of the nine commands. -/
theorem wordsOneToNineDecode : Obligations.WordsOneToNineDecode :=
  ⟨decode_encode .embII, decode_encode .revII, decode_encode .embTI, decode_encode .revTI, decode_encode .embAA,
    decode_encode .revAA, decode_encode .embTA, decode_encode .revTA, decode_encode .quit⟩

/-! ### The words of PIX and SMP (30_encoding.md R52) -/

/-- The channels of a pixel fit their places, so PIX's sum does not wrap. -/
theorem toNat_pixWord (r g b a : Byte) :
    (pixWord r.toNat g.toNat b.toNat a.toNat).toNat
      = a.toNat * 2 ^ 24 + b.toNat * 2 ^ 16 + g.toNat * 2 ^ 8 + r.toNat := by
  have hr := r.isLt
  have hg := g.isLt
  have hb := b.isLt
  have ha := a.isLt
  rw [pixWord, BitVec.toNat_ofNat, Nat.mod_eq_of_lt (by omega)]

theorem toNat_chan (w : Word) (c : Nat) : (chan w c).toNat = w.toNat / 2 ^ (8 * c) % 2 ^ 8 := by
  rw [chan, BitVec.extractLsb'_toNat, Nat.shiftRight_eq_div_pow]

theorem toNat_samp (w : Word) : (samp w).toNat = w.toNat % 2 ^ 16 := by
  rw [samp, BitVec.extractLsb'_toNat, Nat.shiftRight_zero]

theorem toNat_smpWord (v : Int) : (smpWord v).toNat = (v % 65536).toNat := by
  have hnonneg := Int.emod_nonneg v (by decide : (65536 : Int) ≠ 0)
  have hlt := Int.emod_lt_of_pos v (by decide : (0 : Int) < 65536)
  rw [smpWord, BitVec.toNat_ofNat, Nat.mod_eq_of_lt (by omega)]

/-- The pattern of a sample in range reads back as the sample (10_state.md R25). -/
theorem signed16_samp_smpWord {v : Int} (hlow : -32768 ≤ v) (hhigh : v ≤ 32767) : signed16 (samp (smpWord v)) = v := by
  rw [signed16, toNat_samp, toNat_smpWord]
  split <;> omega

/-- Settles O53: the sum of PIX keeps the four channels apart, and SMP's pattern is below 2^16. -/
theorem pixelAndSampleWords : Obligations.PixelAndSampleWords := by
  refine ⟨fun r g b a => ?_, fun v hlow hhigh => ⟨signed16_samp_smpWord hlow hhigh, ?_⟩⟩
  · have hr := r.isLt
    have hg := g.isLt
    have hb := b.isLt
    refine ⟨?_, ?_, ?_, ?_⟩
    all_goals
      apply BitVec.eq_of_toNat_eq
      rw [toNat_chan, toNat_pixWord]
      omega
  · rw [toNat_smpWord]
    omega

end Sys2Proof.Machine

namespace Sys2Proof.Machine

/-! ## PROOFS of the family other: registers, reset and turns (10_state.md, 20_memory.md, 45_control.md)

### What each register number reads (10_state.md R13, R15, R21) -/

/-- Settles O10: a number with a register reads the register, a reserved one has none. -/
theorem registerFileLayout : Obligations.RegisterFileLayout := by
  intro s
  refine ⟨rfl, rfl, rfl, rfl, rfl, rfl, rfl, rfl, rfl, rfl, rfl, rfl, rfl, rfl, rfl, rfl, rfl, rfl, rfl, rfl, rfl, ?_⟩
  exact fun n hres => regValue_of_regAt_none (regAt_reserved hres)

/-- The reserved bits of STATUS. -/
theorem getLsbD_statusWord_reserved (run : RunState) (f : Status) {i : Nat} (h : 4 ≤ i ∧ i ≤ 7 ∨ 11 ≤ i) :
    (statusWord run f).getLsbD i = false := by
  rw [getLsbD_statusWord]
  split
  case h_8 => rfl
  all_goals omega

/-- Settles O11: STATUS reads as `statusWord`, whose bits `getLsbD_statusWord` gives. -/
theorem statusRegisterFields : Obligations.StatusRegisterFields := by
  intro s
  simp only [regValue_status]
  refine ⟨?_, ?_, ?_, ?_, ?_, ?_, ?_, fun i hi => getLsbD_statusWord_reserved s.run s.status hi⟩
  all_goals
    rw [getLsbD_statusWord]
    rfl

/-! ### One turn (45_control.md R82, R83; 20_memory.md R41, R44; log 1) -/

section

variable {s : State} {i : Instr}

theorem engineTurn_busy (h : s.run = .busy) : engineTurn s = complete s := by
  simp only [engineTurn, h]

theorem complete_of_decode (h : decode s.cmd = .ok i) : complete s = exec i s := by
  simp only [complete, h]

/-- A BUSY engine whose turn it is completes. -/
theorem step_busy {rest : List Turn} (hb : s.run = .busy) (hm : EngineMoves s rest) :
    step s = complete (s.setAgenda rest) :=
  (step_engine hm).trans (engineTurn_busy hb)

/-- A BUSY engine whose turn it is runs the command CMD names. -/
theorem step_exec {rest : List Turn} (hb : s.run = .busy) (hm : EngineMoves s rest) (hd : decode s.cmd = .ok i) :
    step s = exec i (s.setAgenda rest) :=
  (step_busy hb hm).trans (complete_of_decode hd)

/-- Placing a command's word is a start with the engine moving next (log 2). -/
theorem withFetchWord_encode (s : State) (i : Instr) :
    s.withFetchWord 32 (encode i).toNat = (start (encode i) s).setAgenda (.engine :: s.agenda) := by
  simp only [State.withFetchWord, tableWord_toNat, loadCommand]

end

/-- Settles O4: an engine that is BUSY completes in its turn, and completing is `exec` of the decoded command. -/
theorem stepRunsTheDecodedCommand : Obligations.StepRunsTheDecodedCommand := fun _ _ hb hm =>
  ⟨step_busy hb hm, fun _ hd _ => step_exec hb hm hd⟩

/-- Settles O5: `step_port` performs the transaction, and no transaction touches the agenda. -/
theorem stepPerformsTheHostTransaction : Obligations.StepPerformsTheHostTransaction := fun _ op _ h =>
  ⟨step_port h, access_agenda op _⟩

/-- Settles O6: the placed word decodes to its command, and the engine's turn is first in the agenda. -/
theorem placedCommandRunsNext : Obligations.PlacedCommandRunsNext := by
  intro s i
  rw [withFetchWord_encode, step_exec rfl (.inr rfl) (decode_encode i)]
  rfl

/-- Settles O8: the engine's turn outside BUSY only uses up the agenda. -/
theorem waitingEngineTakesNoStep : Obligations.WaitingEngineTakesNoStep := fun s rest h hm =>
  (step_engine hm).trans (engineTurn_wait (s := s.setAgenda rest) h)

end Sys2Proof.Machine

namespace Sys2Proof.Machine

/-! ## PROOFS of the family other: what a command leaves (10_state.md, 40_bitplane_primitive.md, 60_exceptions.md) -/

section

variable {i : Instr} {s t : State}

/-- A command writes STATE, STATUS, the result registers and OUT only (10_state.md R10, R14, R23). -/
theorem exec_frame (h : exec i s = .next t) :
    t = { s with run := t.run, status := t.status, res := t.res, out := t.out } := by
  rcases exec_next_cases h with ⟨-, -, rfl⟩ | ⟨-, -, -, rfl⟩ | ⟨-, rfl⟩ <;> rfl

theorem exec_cmd (h : exec i s = .next t) : t.cmd = s.cmd := by rw [exec_frame h]

theorem exec_desc (h : exec i s = .next t) : t.desc = s.desc := by rw [exec_frame h]

theorem exec_word {m : Buffer} (h : exec i s = .next t) (hm : m ≠ .out) (k : Nat) : t.word m k = s.word m k := by
  rw [exec_frame h]
  cases m with
  | car => rfl
  | pay => rfl
  | out => exact absurd rfl hm

/-- QUIT halts the engine, every other command leaves it IDLE (45_control.md R82, R83). -/
theorem exec_run (h : exec i s = .next t) : t.run = if i = .quit then .halted else .idle := by
  rcases exec_next_cases h with ⟨hq, -, rfl⟩ | ⟨hq, -, -, rfl⟩ | ⟨hq, rfl⟩
  · rw [if_neg hq, takeException_run]
  · rw [if_neg hq, commit_run]
  · rw [if_pos hq, halt_run]

/-- Every command ends with DONE 1 (40_bitplane_primitive.md R64, 45_control.md R83, 60_exceptions.md R96). -/
theorem exec_done (h : exec i s = .next t) : t.status.done = true := by
  rcases exec_next_cases h with ⟨-, -, rfl⟩ | ⟨-, -, -, rfl⟩ | ⟨-, rfl⟩ <;> rfl

end

/-- Settles O43: `exec_frame`, and equal memories of one epoch hold equal words. -/
theorem commandsNeverWriteTheirInputs : Obligations.CommandsNeverWriteTheirInputs := fun _ _ _ h =>
  ⟨exec_frame h, exec_word h (by decide), exec_word h (by decide)⟩

/-! ### Which command can be refused (40_bitplane_primitive.md R57 (a)) -/

/-- A command answers a next state, or it is REV_TI and refused. -/
theorem exec_next_or_refused (i : Instr) (s : State) :
    (∃ t, exec i s = .next t) ∨
      (i = .revTI ∧ 2 ^ 32 ≤ revTILength s ∧ exec i s = .refused .textLengthOverflow) := by
  rcases exec_cases i s with ⟨rfl, -, hlen, h⟩ | ⟨-, -, h⟩ | ⟨-, -, -, h⟩ | ⟨-, h⟩
  · exact .inr ⟨rfl, hlen, h⟩
  all_goals exact .inl ⟨_, h⟩

/-- Settles O45: a text of 2^32 characters takes 2^35 bits, and a pixel carries three. -/
theorem onlyGiantTextRevealsAreRefused : Obligations.OnlyGiantTextRevealsAreRefused := by
  intro i s
  refine (exec_next_or_refused i s).imp_right fun ⟨hi, hlen, h⟩ => ⟨hi, ?_, h⟩
  have hle := revTILength_le s
  rw [carPixels] at hle
  omega

/-! ### What a condition depends on (60_exceptions.md R90, R91, R94) -/

section

variable {s t : State}

/-- The conditions read the descriptor without the parameter registers, and the depths. -/
theorem capacityError_congr {p : AudioParams} (i : Instr)
    (hd : { s.desc with params := p } = { t.desc with params := p }) : capacityError i s = capacityError i t := by
  have key : ∀ s : State, capacityError i s =
      capacityError i (State.reset.setDesc { s.desc with params := p }) := by
    intro s
    cases i <;> rfl
  rw [key s, key t, hd]

theorem rangeError_congr {p : AudioParams} (i : Instr) (hcfg : s.cfg = t.cfg)
    (hd : { s.desc with params := p } = { t.desc with params := p }) : rangeError i s = rangeError i t := by
  have key : ∀ s : State, rangeError i s =
      rangeError i { State.reset with cfg := s.cfg, desc := { s.desc with params := p } } := by
    intro s
    cases i <;> rfl
  rw [key s, key t, hcfg, hd]

end

/-- Settles O22: the error bits after a command are its two conditions, which read no memory and no parameter
register. -/
theorem dataRaisesNoException : Obligations.DataRaisesNoException := by
  intro i s t s' t' p hcfg hd hs ht
  obtain ⟨hcapS, hrngS, hcmdS⟩ := exec_errors hs
  obtain ⟨hcapT, hrngT, hcmdT⟩ := exec_errors ht
  refine ⟨?_, ?_, hcmdS, hcmdT⟩
  · rw [hcapS, hcapT, capacityError_congr i hd]
  · rw [hrngS, hrngT, rangeError_congr i hcfg hd]

/-! ### The stream in the carrier (40_bitplane_primitive.md R61, R62) -/

/-- A bit of a pixel that the stream does not address is the carrier's. -/
theorem getLsbD_embedPixels_keeps {cover : List Word} {l : List Bool} {p b : Nat} (hp : p < cover.length)
    (h : ¬ ((b = 0 ∨ b = 8 ∨ b = 16) ∧ 3 * p + b / 8 < l.length)) :
    ((embedPixels cover l).getD p 0#32).getLsbD b = (cover.getD p 0#32).getLsbD b := by
  rw [getLsbD_embedPixels _ _ _ _ hp]
  split
  next hb => rw [List.getElem?_eq_none (by omega), Option.getD_none]
  next => rfl

/-- A bit of a sample that the stream does not address is the carrier's. -/
theorem getLsbD_embedSamples_keeps {cover : List Word} {l : List Bool} {k b : Nat} (hk : k < cover.length)
    (h : ¬ (b = 0 ∧ k < l.length)) :
    ((embedSamples cover l).getD k 0#32).getLsbD b = (cover.getD k 0#32).getLsbD b := by
  rw [getLsbD_embedSamples _ _ _ _ hk]
  split
  next hb => rw [List.getElem?_eq_none (by omega), Option.getD_none]
  next => rfl

/-- Settles O37: the LSBs of the result begin with the stream, and an embed writes the addressed positions only. -/
theorem embeddedStreamIsReadBack : Obligations.EmbeddedStreamIsReadBack :=
  ⟨fun cover l h => ⟨length_embedPixels cover l, (List.prefix_iff_eq_take.1 (prefix_pixelbits_embedPixels h)).symm,
      fun _ _ => getLsbD_embedPixels_keeps⟩,
    fun cover l h => ⟨length_embedSamples cover l, (List.prefix_iff_eq_take.1 (prefix_samplelsbs_embedSamples h)).symm,
      fun _ _ => getLsbD_embedSamples_keeps⟩⟩

end Sys2Proof.Machine

namespace Sys2Proof.Machine

/-! ## PROOFS of the family other: what every step keeps (10_state.md, 20_memory.md, 45_control.md)

### What a host transaction can do (45_control.md R86, R87, R88; 70_reset_and_hazards.md R101) -/

/-- Everything a transaction can do: only answer, start a command, write a descriptor register, store a word below the
depth, or reset. -/
theorem access_cases (op : PortOp) (s : State) :
    (∃ r d, access op s = { s with reply := r, draws := d }) ∨
    (∃ v, op = .writeReg 0 v ∧ s.run = .idle ∧ access op s = (start v s).respond none) ∨
    (∃ n v d, op = .writeReg n v ∧ s.run = .idle ∧ DescriptorNumber n.val ∧
      access op s = (s.setDesc d).respond none) ∨
    (∃ m i v, op = .writeMem m i v ∧ s.run = .idle ∧ inDepth i (depthOf s.cfg m) = true ∧
      access op s = (s.setMem m ((s.mem m).set i v)).respond none) ∨
    (op = .reset ∧ access op s = resetEngine s) := by
  by_cases hreset : op = .reset
  · subst hreset
    exact .inr (.inr (.inr (.inr ⟨rfl, rfl⟩)))
  by_cases hidle : s.run = .idle
  case neg => exact .inl (access_not_idle hidle hreset)
  cases op with
  | readReg n => exact .inl ⟨_, _, rfl⟩
  | readMem m i => exact .inl (readMem_respond m i s)
  | reset => exact absurd rfl hreset
  | writeReg n v =>
    by_cases hcmd : n = 0
    · subst hcmd
      exact .inr (.inl ⟨v, rfl, hidle, congrArg (State.respond none) (writeReg_idle hidle 0 v)⟩)
    by_cases hdesc : DescriptorNumber n.val
    · obtain ⟨r, hr, hn⟩ := regAt_mem_descriptorRegs hdesc
      exact .inr (.inr (.inl ⟨n, v, _, rfl, hidle, hdesc,
        congrArg (State.respond none) (writeReg_descriptor hidle hr hn v)⟩))
    · exact .inl ⟨none, s.draws,
        congrArg (State.respond none) ((writeReg_idle hidle n v).trans (writeRegIdle_ignored hcmd hdesc v s))⟩
  | writeMem m i v =>
    by_cases hi : inDepth i (depthOf s.cfg m) = true
    · exact .inr (.inr (.inr (.inl ⟨m, i, v, rfl, hidle, hi,
        congrArg (State.respond none) (writeMem_stores v hidle hi)⟩)))
    · exact .inl ⟨none, s.draws,
        congrArg (State.respond none) (writeMem_ignored v (.inr (Bool.eq_false_iff.2 hi)))⟩

/-! ### The STATUS relations (10_state.md R15) -/

section

variable {s t : State}

/-- The STATUS relations speak of STATE and STATUS only. -/
theorem StatusInv.congr (h : StatusInv s) (hrun : t.run = s.run) (hstatus : t.status = s.status) : StatusInv t where
  busy_clear := by rw [hrun, hstatus]; exact h.busy_clear
  halted_flags := by rw [hrun, hstatus]; exact h.halted_flags
  only_when_done := by rw [hstatus]; exact h.only_when_done
  term_no_error := by rw [hstatus]; exact h.term_no_error
  cmd_alone := by rw [hstatus]; exact h.cmd_alone

theorem statusInv_of_clear (hrun : s.run ≠ .halted) (hstatus : s.status = startFlags) : StatusInv s where
  busy_clear _ := hstatus
  halted_flags h := absurd h hrun
  only_when_done _ := hstatus
  term_no_error h := by simp [hstatus, startFlags] at h
  cmd_alone h := by simp [hstatus, startFlags] at h

theorem statusInv_takeException {cap rng cmd : Bool} (h : cmd = true → cap = false ∧ rng = false) (s : State) :
    StatusInv (takeException cap rng cmd s) where
  busy_clear := nofun
  halted_flags := nofun
  only_when_done := nofun
  term_no_error := nofun
  cmd_alone := h

theorem statusInv_commit (r : Result) (s : State) : StatusInv (commit r s) where
  busy_clear := nofun
  halted_flags := nofun
  only_when_done := nofun
  term_no_error _ := ⟨rfl, rfl, rfl⟩
  cmd_alone := nofun

theorem statusInv_halt (s : State) : StatusInv (halt s) where
  busy_clear := nofun
  halted_flags _ := rfl
  only_when_done := nofun
  term_no_error := nofun
  cmd_alone := nofun

/-! ### The canonical form of the memories (20_memory.md R28; log 6) -/

theorem mem_congr (hcar : t.car = s.car) (hpay : t.pay = s.pay) (hout : t.out = s.out) (m : Buffer) :
    t.mem m = s.mem m := by
  cases m
  · exact hcar
  · exact hpay
  · exact hout

theorem MemoryInv.congr (h : MemoryInv s) (hcfg : t.cfg = s.cfg) (hmem : ∀ m, t.mem m = s.mem m) : MemoryInv t where
  wf m := hmem m ▸ h.wf m
  fits m := hmem m ▸ hcfg ▸ h.fits m

theorem memoryInv_of_unwritten (h : ∀ m, s.mem m = .unwritten) : MemoryInv s where
  wf m := h m ▸ wf_unwritten
  fits m := h m ▸ fits_unwritten _

/-- One memory may be replaced by another in canonical form within its depth. -/
theorem MemoryInv.setMem {m : Buffer} {v : Memory} (h : MemoryInv s) (hwf : v.wf)
    (hfits : v.fits (depthOf s.cfg m)) : MemoryInv (s.setMem m v) where
  wf k := by
    rw [mem_setMem]
    split
    next => exact hwf
    next => exact h.wf k
  fits k := by
    rw [mem_setMem, setMem_cfg]
    split
    next hk => exact hk ▸ hfits
    next => exact h.fits k

theorem MemoryInv.commit {r : Result} (h : MemoryInv s) (hr : exceeds r.words.length s.cfg.outDepth = false) :
    MemoryInv (commit r s) :=
  (h.setMem (m := .out) (wf_setPrefix _ r.words (h.wf .out)) (fits_setPrefix _ r.words _ (h.fits .out) hr)).congr rfl
    (mem_congr rfl rfl rfl)

/-! ### Every step keeps the invariant -/

/-- The invariant speaks of STATE, STATUS, the depths and the memories only. -/
theorem Inv.congr (h : Inv s) (hrun : t.run = s.run) (hstatus : t.status = s.status) (hcfg : t.cfg = s.cfg)
    (hmem : ∀ m, t.mem m = s.mem m) : Inv t :=
  ⟨h.status.congr hrun hstatus, h.memory.congr hcfg hmem⟩

theorem Inv.setAgenda (h : Inv s) (rest : List Turn) : Inv (s.setAgenda rest) :=
  h.congr rfl rfl rfl (mem_congr rfl rfl rfl)

theorem Inv.takeException {cap rng cmd : Bool} (h : Inv s) (hcmd : cmd = true → cap = false ∧ rng = false) :
    Inv (takeException cap rng cmd s) :=
  ⟨statusInv_takeException hcmd s, h.memory.congr rfl (mem_congr rfl rfl rfl)⟩

/-- A committed result has its own flags and fits OUT (60_exceptions.md R91). -/
theorem exec_preserves_inv {i : Instr} (h : Inv s) (he : exec i s = .next t) : Inv t := by
  rcases exec_next_cases he with ⟨-, -, rfl⟩ | ⟨hq, ha, -, rfl⟩ | ⟨-, rfl⟩
  · exact h.takeException nofun
  · exact ⟨statusInv_commit _ s, h.memory.commit (resultOf_fits hq ha)⟩
  · exact ⟨statusInv_halt s, h.memory.congr rfl (mem_congr rfl rfl rfl)⟩

theorem access_preserves_inv (op : PortOp) (h : Inv s) : Inv (access op s) := by
  rcases access_cases op s with ⟨r, d, he⟩ | ⟨v, -, -, he⟩ | ⟨n, v, d, -, -, -, he⟩ | ⟨m, i, v, -, -, hi, he⟩ | ⟨-, he⟩
  all_goals rw [he]
  · exact h.congr rfl rfl rfl (mem_congr rfl rfl rfl)
  · exact ⟨statusInv_of_clear (by simp) rfl, h.memory.congr rfl (mem_congr rfl rfl rfl)⟩
  · exact h.congr rfl rfl rfl (mem_congr rfl rfl rfl)
  · have hmem := h.memory.setMem (wf_set _ i v (h.memory.wf m)) (fits_set _ i v _ (h.memory.fits m) hi)
    exact ⟨h.status.congr (by simp) (by simp), hmem.congr (by simp) (mem_congr rfl rfl rfl)⟩
  · exact ⟨statusInv_of_clear (by simp) rfl, memoryInv_of_unwritten (mem_resetEngine s)⟩

end

/-- Settles O49: a transaction, a waiting engine, a command and an invalid word each keep the invariant. -/
theorem everyStepKeepsTheInvariant : Obligations.EveryStepKeepsTheInvariant := by
  intro s t h hstep
  rcases step_next_cases hstep with ⟨op, rest, -, rfl⟩ | ⟨rest, -, -, rfl⟩ | ⟨rest, i, -, -, -, he⟩ |
    ⟨rest, e, -, -, -, rfl⟩
  · exact access_preserves_inv op (h.setAgenda rest)
  · exact h.setAgenda rest
  · exact exec_preserves_inv (h.setAgenda rest) he
  · exact (h.setAgenda rest).takeException fun _ => ⟨rfl, rfl⟩

/-- Settles O48: every flag is 0 and no memory word is listed. -/
theorem invariantHoldsAtReset : Obligations.InvariantHoldsAtReset :=
  ⟨statusInv_of_clear (by decide) rfl, memoryInv_of_unwritten mem_reset⟩

/-! ### The changes of STATE (10_state.md R9) -/

section

variable {s t : State} {rest : List Turn}

/-- When the host moves next, the engine does not. -/
theorem not_engineMoves_of_port {op : PortOp} (h : s.agenda = .port op :: rest) : ¬ ∃ rest, EngineMoves s rest := by
  rintro ⟨rest', ⟨ha, -⟩ | ha⟩ <;> simp [h] at ha

theorem encode_eq_nine_iff (i : Instr) : encode i = 9#32 ↔ i = .quit := by cases i <;> decide

/-- A completed command leaves the engine HALTED exactly when CMD is QUIT's word. -/
theorem run_of_exec {i : Instr} (hd : decode s.cmd = .ok i) (he : exec i (s.setAgenda rest) = .next t) :
    t.run = if s.cmd = 9#32 then .halted else .idle := by
  rw [exec_run he, eq_encode_of_decode hd]
  simp only [encode_eq_nine_iff]

theorem cmd_ne_nine_of_rejected {e : Reject} (h : decode s.cmd = .error e) : s.cmd ≠ 9#32 := by
  intro h9
  rw [h9, show (9#32 : Word) = encode .quit from rfl, decode_encode] at h
  cases h

end

/-- Settles O46: a transaction changes STATE by a reset or a start only, and the engine's turn by a completion only. -/
theorem runStateTransitions : Obligations.RunStateTransitions := by
  intro s t hstep
  rcases step_next_cases hstep with ⟨op, rest, ha, rfl⟩ | ⟨rest, -, hr, rfl⟩ | ⟨rest, i, hm, hr, hd, he⟩ |
    ⟨rest, e, hm, hr, hd, rfl⟩
  · have hport := not_engineMoves_of_port ha
    rcases access_cases op (s.setAgenda rest) with ⟨r, d, he⟩ | ⟨v, rfl, hr, he⟩ | ⟨n, v, d, -, -, -, he⟩ |
      ⟨m, i, v, -, -, -, he⟩ | ⟨rfl, he⟩
    all_goals rw [he]
    · exact .inr (.inr (.inr ⟨rfl, fun _ => hport⟩))
    · exact .inr (.inl ⟨v, rest, ha, hr, rfl⟩)
    · exact .inr (.inr (.inr ⟨rfl, fun _ => hport⟩))
    · exact .inr (.inr (.inr ⟨by simp, fun _ => hport⟩))
    · exact .inl ⟨rest, ha, rfl⟩
  · exact .inr (.inr (.inr ⟨rfl, fun hb => absurd hb hr⟩))
  · exact .inr (.inr (.inl ⟨rest, hm, hr, run_of_exec hd he⟩))
  · exact .inr (.inr (.inl ⟨rest, hm, hr, (if_neg (cmd_ne_nine_of_rejected hd)).symm⟩))

/-! ### Who changes the inputs (10_state.md R13, R16, R17, R23) -/

section

variable {s : State} {op : PortOp}

/-- A transaction changes the descriptor by a reset or by a write of an RW register in IDLE. -/
theorem access_changes_desc (h : (access op s).desc ≠ s.desc) :
    op = .reset ∨ ∃ n v, s.run = .idle ∧ DescriptorNumber n.val ∧ op = .writeReg n v := by
  rcases access_cases op s with ⟨r, d, he⟩ | ⟨v, -, -, he⟩ | ⟨n, v, d, hop, hr, hn, -⟩ | ⟨m, i, v, -, -, -, he⟩ |
    ⟨hop, -⟩
  · exact absurd (by rw [he]) h
  · exact absurd (by rw [he]; rfl) h
  · exact .inr ⟨n, v, hr, hn, hop⟩
  · exact absurd (by rw [he]; simp) h
  · exact .inl hop

/-- A transaction changes a memory word by a reset or by a write of that word in IDLE. -/
theorem access_changes_word {m : Buffer} {k : Nat} (h : (access op s).word m k ≠ s.word m k) :
    op = .reset ∨ ∃ v, s.run = .idle ∧ op = .writeMem m k v := by
  rcases access_cases op s with ⟨r, d, he⟩ | ⟨v, -, -, he⟩ | ⟨n, v, d, -, -, -, he⟩ | ⟨m', i, v, hop, hr, -, he⟩ |
    ⟨hop, -⟩
  · exact absurd (by rw [he]; cases m <;> rfl) h
  · exact absurd (by rw [he, word_respond, word_start]) h
  · exact absurd (by rw [he]; cases m <;> rfl) h
  · rw [he, word_respond, word_setMem_set] at h
    by_cases hmk : m' = m ∧ i = k
    · obtain ⟨rfl, rfl⟩ := hmk
      exact .inr ⟨v, hr, hop⟩
    · exact absurd (if_neg hmk) h
  · exact .inl hop

end

/-- Settles O47: no turn of the engine changes an input, and a transaction changes one by a reset or by its write. -/
theorem inputsChangeOnlyByTheHost : Obligations.InputsChangeOnlyByTheHost := by
  intro s t hstep
  rcases step_next_cases hstep with ⟨op, rest, ha, rfl⟩ | ⟨rest, -, -, rfl⟩ | ⟨rest, i, -, -, -, he⟩ |
    ⟨rest, e, -, -, -, rfl⟩
  · refine ⟨fun h => ?desc, fun m k _ h => ?word⟩
    case desc =>
      rcases access_changes_desc h with rfl | ⟨n, v, hr, hn, rfl⟩
      · exact .inl ⟨rest, ha⟩
      · exact .inr ⟨n, v, rest, hr, hn, ha⟩
    case word =>
      rw [← word_setAgenda s rest] at h
      rcases access_changes_word h with rfl | ⟨v, hr, rfl⟩
      · exact .inl ⟨rest, ha⟩
      · exact .inr ⟨v, rest, hr, ha⟩
  · exact ⟨fun h => absurd rfl h, fun m k _ h => absurd (word_setAgenda s rest m k) h⟩
  · exact ⟨fun h => absurd (exec_desc he) h,
      fun m k hm h => absurd ((exec_word he hm k).trans (word_setAgenda s rest m k)) h⟩
  · exact ⟨fun h => absurd rfl h,
      fun m k _ h => absurd ((word_takeException ..).trans (word_setAgenda s rest m k)) h⟩

end Sys2Proof.Machine

namespace Sys2Proof.Machine

/-! ## PROOFS of the family other: runs of several steps (30_encoding.md, 45_control.md, 70_reset_and_hazards.md)

### Steps -/

section

variable {s t : State} {rest : List Turn} {n : Nat}

theorem steps_one (s : State) : steps 1 s = step s := by
  rw [steps]
  cases step s <;> rfl

/-- A run goes on from where its first steps end. -/
theorem steps_add_of_next {m : Nat} (h : steps m s = .next t) (n : Nat) : steps (m + n) s = steps n t := by
  rw [steps_add, h]

/-- A refusal ends a run. -/
theorem steps_add_of_refused {m : Nat} {r : Refusal} (h : steps m s = .refused r) (n : Nat) :
    steps (m + n) s = .refused r := by
  rw [steps_add, h]

/-- A run begins with the transaction that stands first in the agenda. -/
theorem steps_port {op : PortOp} (h : s.agenda = .port op :: rest) (n : Nat) :
    steps (n + 1) s = steps n (access op (s.setAgenda rest)) :=
  steps_succ_next (step_port h)

/-! ### A BUSY engine completes (70_reset_and_hazards.md R114) -/

/-- The completion answers a next state, and the engine is not BUSY there, or a text reveal is refused. -/
theorem complete_next_or_refused (s : State) :
    (∃ t, complete s = .next t ∧ t.run ≠ .busy) ∨ complete s = .refused .textLengthOverflow := by
  rcases complete_cases s with ⟨i, -, hc⟩ | ⟨e, -, hc⟩
  · rw [hc]
    rcases exec_next_or_refused i s with ⟨t, he⟩ | ⟨-, -, he⟩
    · exact .inl ⟨t, he, exec_not_busy he⟩
    · exact .inr he
  · exact .inl ⟨_, hc, by simp⟩

/-- The engine's turn ends outside BUSY, or a text reveal is refused. -/
theorem engineTurn_next_or_refused (s : State) :
    (∃ t, engineTurn s = .next t ∧ t.run ≠ .busy) ∨ engineTurn s = .refused .textLengthOverflow := by
  by_cases hb : s.run = .busy
  · rw [engineTurn_busy hb]
    exact complete_next_or_refused s
  · exact .inl ⟨s, engineTurn_wait hb, hb⟩

theorem step_next_or_refused (s : State) : (∃ t, step s = .next t) ∨ step s = .refused .textLengthOverflow := by
  rcases moves_cases s with ⟨rest, hm⟩ | ⟨op, rest, ha⟩
  · rw [step_engine hm]
    exact (engineTurn_next_or_refused _).imp_left fun ⟨t, ht, _⟩ => ⟨t, ht⟩
  · exact .inl ⟨_, step_port ha⟩

/-- `n` steps use up `n` turns, or a text reveal on the way is refused. -/
theorem steps_next_or_refused (n : Nat) (s : State) :
    (∃ t, steps n s = .next t ∧ t.agenda = s.agenda.drop n) ∨ steps n s = .refused .textLengthOverflow := by
  induction n generalizing s with
  | zero => exact .inl ⟨s, rfl, rfl⟩
  | succ n ih =>
    rcases step_next_or_refused s with ⟨u, hu⟩ | hu
    · rw [steps_succ_next hu, ← List.drop_tail, ← step_agenda hu]
      exact ih u
    · rw [steps, hu]
      exact .inr rfl

end

/-- Settles O50: when the agenda is used up the engine has the next turn, and its turn ends outside BUSY. -/
theorem busyEngineCompletes : Obligations.BusyEngineCompletes := by
  intro s
  rcases steps_next_or_refused s.agenda.length s with ⟨u, hu, ha⟩ | hu
  case inr => exact .inr (steps_add_of_refused hu 1)
  rw [List.drop_length] at ha
  have hlast : step u = engineTurn (u.setAgenda []) := step_engine (.inl ⟨ha, rfl⟩)
  rw [steps_add_of_next hu 1, steps_one]
  rcases engineTurn_next_or_refused (u.setAgenda []) with ⟨t, ht, hb⟩ | ht
  · have hstep := hlast.trans ht
    exact .inl ⟨t, hstep, hb, by rw [step_agenda hstep, ha, List.tail_nil]⟩
  · exact .inr (hlast.trans ht)

/-! ### A mnemonic line (30_encoding.md R51; log 15) -/

section

variable {s : State} {rest : List Turn}

/-- Any number of STATUS reads leaves nothing but an answer. -/
theorem steps_polls (polls : Nat) (h : s.agenda = List.replicate polls (rdTurn 1) ++ rest) :
    ∃ r, steps polls s = .next ((s.setAgenda rest).respond r) := by
  induction polls generalizing s with
  | zero =>
    obtain rfl : s.agenda = rest := h
    exact ⟨s.reply, rfl⟩
  | succ polls ih =>
    rw [steps_port (rest := List.replicate polls (rdTurn 1) ++ rest) h]
    exact ih (s := (s.setAgenda _).respond (some (regValue 1 s))) rfl

/-- A WAIT of a BUSY engine: after the polls the command CMD names completes, and STATUS is read. -/
theorem steps_wait {i : Instr} (polls : Nat) (h : s.agenda = waitTurns polls) (hb : s.run = .busy)
    (hd : decode s.cmd = .ok i) :
    (∃ t r, exec i ((s.setAgenda [rdTurn 1]).respond r) = .next t ∧
      steps (polls + 2) s = .next ((t.setAgenda []).respond (some (regValue 1 t)))) ∨
    (i = .revTI ∧ steps (polls + 2) s = .refused .textLengthOverflow) := by
  obtain ⟨r, hr⟩ := steps_polls polls h
  have hstep : step ((s.setAgenda [.engine, rdTurn 1]).respond r) = exec i ((s.setAgenda [rdTurn 1]).respond r) :=
    step_exec hb (.inr rfl) hd
  rw [steps_add_of_next hr 2]
  rcases exec_next_or_refused i ((s.setAgenda [rdTurn 1]).respond r) with ⟨t, ht⟩ | ⟨hi, -, ht⟩
  · refine .inl ⟨t, r, ht, ?_⟩
    rw [steps_succ_next (hstep.trans ht), steps_port (exec_agenda ht)]
    rfl
  · refine .inr ⟨hi, ?_⟩
    rw [steps, hstep, ht]

/-- A mnemonic line from IDLE is a start and a WAIT. -/
theorem run_command (i : Instr) (polls : Nat) (h : s.run = .idle) :
    (Line.command i polls).run s
      = steps (polls + 2) ((start (encode i) (s.setAgenda (waitTurns polls))).respond none) := by
  have hlen : ((Line.command i polls).turns s).length = polls + 2 + 1 := by
    simp [Line.turns, commandTurns, waitTurns]
  rw [Line.run, hlen, steps_port (rest := waitTurns polls) rfl]
  exact congrArg (fun u => steps (polls + 2) (u.respond none))
    (writeReg_idle (s := s.setAgenda (waitTurns polls)) h 0 (encode i))

end

/-- Settles O51: the line is a start and a WAIT, and the command it waits for ends outside BUSY with DONE 1. -/
theorem commandLineCompletesAndReadsStatus : Obligations.CommandLineCompletesAndReadsStatus := by
  intro s i polls h
  rw [run_command i polls h]
  refine (steps_wait polls rfl rfl (decode_encode i)).imp_left fun ⟨t, r, he, ht⟩ => ?_
  have hcmd := exec_cmd he
  have hbusy := exec_not_busy he
  have hdone := exec_done he
  exact ⟨_, ht, hcmd, hbusy, hdone, rfl, rfl⟩

/-! ### MOVE (30_encoding.md R52; log 16) -/

/-- What the first `k` loads and stores of a MOVE leave, `rest` being the turns still to be taken. -/
structure Moved (s : State) (k : Nat) (rest : List Turn) (t : State) : Prop where
  frame : t = { s with agenda := rest, reply := t.reply, car := t.car }
  carried : ∀ j, j < k → t.word .car j = s.word .out j
  kept : ∀ j, k ≤ j → t.word .car j = s.word .car j

section

variable {s t : State} {rest : List Turn} {k : Nat}

theorem loadValue_of_inDepth {m : Buffer} {i : Nat} (h : inDepth i (depthOf s.cfg m) = true) :
    loadValue m i s = s.word m i := by
  rw [loadValue, if_pos h]

/-- In IDLE a load of OUT and a store of CAR, both below the depths, store the word. -/
theorem steps_load_store {v : Word} (hr : t.run = .idle) (hout : inDepth k t.cfg.outDepth = true)
    (hcar : inDepth k t.cfg.carDepth = true) (ha : t.agenda = ldTurn .out k :: stTurn .car k v :: rest) :
    steps 2 t = .next { t with agenda := rest, reply := none, car := t.car.set k v } := by
  have hread : access (.readMem .out k) (t.setAgenda (stTurn .car k v :: rest))
      = (t.setAgenda (stTurn .car k v :: rest)).respond (some (t.word .out k)) :=
    readMem_word (by simp [hr]) hout
  have hwrite : writeMem .car k v ((t.setAgenda rest).respond (some (t.word .out k)))
      = ((t.setAgenda rest).respond (some (t.word .out k))).setMem .car (t.car.set k v) :=
    writeMem_stores v hr hcar
  rw [steps_port ha, hread, steps_port (op := .writeMem .car k v) (rest := rest) rfl]
  exact congrArg (fun u : State => Host.Outcome.next (u.respond none)) hwrite

/-- CAR after a load and a store. -/
theorem word_car_store (t : State) (rest : List Turn) (k : Nat) (v : Word) (j : Nat) :
    State.word { t with agenda := rest, reply := none, car := t.car.set k v } .car j
      = if k = j then v else t.word .car j := by
  simp only [State.word, mem_car, get?_set]
  split <;> rfl

/-- One more load and store carry one more word. -/
theorem Moved.succ (h : Moved s k (ldTurn .out k :: stTurn .car k (s.word .out k) :: rest) t) (hr : s.run = .idle)
    (hout : inDepth k s.cfg.outDepth = true) (hcar : inDepth k s.cfg.carDepth = true) :
    ∃ u, steps 2 t = .next u ∧ Moved s (k + 1) rest u := by
  obtain ⟨hframe, hcarried, hkept⟩ := h
  have hrun : t.run = .idle := by rw [hframe]; exact hr
  have hcfg : t.cfg = s.cfg := by rw [hframe]
  refine ⟨_, steps_load_store hrun (hcfg ▸ hout) (hcfg ▸ hcar) (by rw [hframe]), ?_, fun j hj => ?_, fun j hj => ?_⟩
  · rw [hframe]
  · rw [word_car_store]
    split
    next hkj => rw [hkj]
    next hkj => exact hcarried j (by omega)
  · rw [word_car_store, if_neg (by omega)]
    exact hkept j (by omega)

theorem moveTurns_succ (n : Nat) (s : State) :
    moveTurns (n + 1) s = moveTurns n s ++ [ldTurn .out n, stTurn .car n (loadValue .out n s)] := by
  simp [moveTurns, List.range_succ]

theorem length_moveTurns (n : Nat) (s : State) : (moveTurns n s).length = 2 * n := by
  induction n with
  | zero => rfl
  | succ n ih => rw [moveTurns_succ, List.length_append, ih]; rfl

/-- The loads and stores of a MOVE within both depths carry its words, whatever turns follow. -/
theorem steps_moveTurns (n : Nat) (rest : List Turn) (hr : s.run = .idle)
    (hout : exceeds n s.cfg.outDepth = false) (hcar : exceeds n s.cfg.carDepth = false) :
    ∃ t, steps (2 * n) (s.setAgenda (moveTurns n s ++ rest)) = .next t ∧ Moved s n rest t := by
  induction n generalizing rest with
  | zero => exact ⟨_, rfl, rfl, fun j hj => absurd hj (by omega), fun j _ => word_setAgenda ..⟩
  | succ n ih =>
    have hn : n < n + 1 := by omega
    have hload : loadValue .out n s = s.word .out n := loadValue_of_inDepth (inDepth_of_lt hn hout)
    rw [moveTurns_succ, List.append_assoc, hload]
    obtain ⟨t, ht, hmoved⟩ := ih _ (exceeds_mono hn.le hout) (exceeds_mono hn.le hcar)
    rw [Nat.mul_succ, steps_add_of_next ht 2]
    exact hmoved.succ hr (inDepth_of_lt hn hout) (inDepth_of_lt hn hcar)

end

/-- Settles O52: the line's turns are the loads and stores, each pair of which carries one word. -/
theorem moveCarriesOutIntoCar : Obligations.MoveCarriesOutIntoCar := by
  intro s n hr hout hcar
  rw [beyond_iff, Bool.not_eq_true] at hout hcar
  obtain ⟨t, ht, hframe, hcarried, hkept⟩ := steps_moveTurns n [] hr hout hcar
  refine ⟨t, ?_, hframe, hcarried, hkept⟩
  rw [List.append_nil, ← length_moveTurns n s] at ht
  exact ht

end Sys2Proof.Machine
